-- ==== Sys2Proof/Word.lean ====
section
/-! DEFINITION. The word and byte types (00_scope.md R9, R11). -/

namespace Sys2Proof

/-- A 32-bit word: register, PC, address and instruction width (00_scope.md R9). -/
abbrev Word := BitVec 32

/-- A byte of memory or of a console stream. -/
abbrev Byte := BitVec 8

end Sys2Proof
end

