-- ==== Sys2Proof/Syntax.lean ====
section
/-! DEFINITION. The instructions, one constructor for each row of spec/opcode_table.json, with the operands in the
order of the assembler form of 30_encoding.md R66. A field that an instruction does not use (R56) is no operand. -/

namespace Sys2Proof

/-- The number of a general register (10_state.md R15). -/
abbrev RegNum := Fin 32

/-- `$v0`: the syscall selector and the read_int result (10_state.md R18). -/
abbrev RegNum.v0 : RegNum := 2
/-- `$a0`: the syscall argument (10_state.md R18). -/
abbrev RegNum.a0 : RegNum := 4
/-- `$sp` (10_state.md R18). -/
abbrev RegNum.sp : RegNum := 29
/-- `$ra`: the link register of `jal` (10_state.md R18). -/
abbrev RegNum.ra : RegNum := 31

/-- The 20 instructions of 30_encoding.md R55. `shamt` is a count (R57), so it is a number; WellFormed bounds it by
what the field can hold. -/
inductive Instr where
  | sll (rd rt : RegNum) (shamt : Nat)
  | jr (rs : RegNum)
  | syscall
  | add (rd rs rt : RegNum)
  | addu (rd rs rt : RegNum)
  | sub (rd rs rt : RegNum)
  | or (rd rs rt : RegNum)
  | slt (rd rs rt : RegNum)
  | mul (rd rs rt : RegNum)
  | j (target : BitVec 26)
  | jal (target : BitVec 26)
  | beq (rs rt : RegNum) (imm : BitVec 16)
  | bne (rs rt : RegNum) (imm : BitVec 16)
  | addi (rt rs : RegNum) (imm : BitVec 16)
  | addiu (rt rs : RegNum) (imm : BitVec 16)
  | slti (rt rs : RegNum) (imm : BitVec 16)
  | ori (rt rs : RegNum) (imm : BitVec 16)
  | lui (rt : RegNum) (imm : BitVec 16)
  | lw (rt rs : RegNum) (imm : BitVec 16)
  | sw (rt rs : RegNum) (imm : BitVec 16)
  deriving DecidableEq, Repr

end Sys2Proof
end

