-- ==== Sys2Proof/WellFormed.lean ====
section
/-! DEFINITION. Which instructions have an encoding. Register numbers, immediates and targets are bounded by their
types; the shift amount is a number and is checked here. -/

namespace Sys2Proof

/-- A shift by 32 or more cannot be encoded (41_alu.md R80; 30_encoding.md R57: 0..31). -/
def Instr.wf : Instr → Bool
  | .sll _ _ shamt => decide (shamt < 32)
  | .jr _ | .syscall => true
  | .add _ _ _ | .addu _ _ _ | .sub _ _ _ | .or _ _ _ | .slt _ _ _ | .mul _ _ _ => true
  | .j _ | .jal _ => true
  | .beq _ _ _ | .bne _ _ _ => true
  | .addi _ _ _ | .addiu _ _ _ | .slti _ _ _ | .ori _ _ _ | .lui _ _ => true
  | .lw _ _ _ | .sw _ _ _ => true

end Sys2Proof
end

