-- ==== Sys2Proof/Decode.lean ====
section
/-! DEFINITION. The decoder (30_encoding.md R51 to R65), the encoder, the opcode table as data, the byte order of a
word (20_memory.md R34) and the bit fields of an instruction. -/

namespace Sys2Proof

/-! ## Byte order of a word, decided here and nowhere else (20_memory.md R34) -/

/-- The word whose bytes at `a`, `a+1`, `a+2`, `a+3` are `b0`, `b1`, `b2`, `b3`: little-endian. -/
def wordOfBytes (b0 b1 b2 b3 : Byte) : Word := b3 ++ b2 ++ b1 ++ b0

/-- The byte that a store of `v` at `a` puts at `a + k`. -/
def byteOfWord (v : Word) (k : Nat) : Byte := v.extractLsb' (8 * k) 8

/-! ## Fields (30_encoding.md R52 to R54, R58; 40_cycle.md R70) -/

/-- A 5-bit register field as a register number. -/
def regOfField (f : BitVec 5) : RegNum := f.toFin

/-- A register number as a 5-bit field. -/
def fieldOfReg (r : RegNum) : BitVec 5 := BitVec.ofFin r

/-- `w[31:26]`. -/
def opcodeOf (w : Word) : BitVec 6 := w.extractLsb' 26 6
/-- `w[25:21]`. -/
def rsOf (w : Word) : RegNum := regOfField (w.extractLsb' 21 5)
/-- `w[20:16]`. -/
def rtOf (w : Word) : RegNum := regOfField (w.extractLsb' 16 5)
/-- `w[15:11]`. -/
def rdOf (w : Word) : RegNum := regOfField (w.extractLsb' 11 5)
/-- `unsigned(w[10:6])`. -/
def shamtOf (w : Word) : Nat := (w.extractLsb' 6 5).toNat
/-- `w[5:0]`. -/
def functOf (w : Word) : BitVec 6 := w.extractLsb' 0 6
/-- `w[15:0]`. -/
def immOf (w : Word) : BitVec 16 := w.extractLsb' 0 16
/-- `w[25:0]`. -/
def targetOf (w : Word) : BitVec 26 := w.extractLsb' 0 26

/-! ## The decoder -/

/-- The classes of word (30_encoding.md R65). The all-zero word is in the first: its full decode is `sll $0,$0,0`,
which has the fast path's effect (R59, 90_conflicts.md C8; log entry 12). -/
inductive Decoded where
  /-- One of the 20 instructions (R55). -/
  | instr (i : Instr)
  /-- Opcode 0 or 0x1C with a function code that is not in the map: a no-op (R61). -/
  | unmatchedFunction
  /-- An opcode that is not in the map: fatal (R60). -/
  | unimplementedOpcode
  deriving DecidableEq, Repr

/-- The function map of opcode 0 (R63). -/
def decodeSpecial (w : Word) : Decoded :=
  match (functOf w).toNat with
  | 0x00 => .instr (.sll (rdOf w) (rtOf w) (shamtOf w))
  | 0x08 => .instr (.jr (rsOf w))
  | 0x0C => .instr .syscall
  | 0x20 => .instr (.add (rdOf w) (rsOf w) (rtOf w))
  | 0x21 => .instr (.addu (rdOf w) (rsOf w) (rtOf w))
  | 0x22 => .instr (.sub (rdOf w) (rsOf w) (rtOf w))
  | 0x25 => .instr (.or (rdOf w) (rsOf w) (rtOf w))
  | 0x2A => .instr (.slt (rdOf w) (rsOf w) (rtOf w))
  | _ => .unmatchedFunction

/-- The function map of opcode 0x1C (R64). -/
def decodeSpecial2 (w : Word) : Decoded :=
  match (functOf w).toNat with
  | 0x02 => .instr (.mul (rdOf w) (rsOf w) (rtOf w))
  | _ => .unmatchedFunction

/-- Two-level dispatch on the opcode and, for opcodes 0 and 0x1C, the function code (R56, R62; 40_cycle.md R71). -/
def decode (w : Word) : Decoded :=
  match (opcodeOf w).toNat with
  | 0x00 => decodeSpecial w
  | 0x1C => decodeSpecial2 w
  | 0x02 => .instr (.j (targetOf w))
  | 0x03 => .instr (.jal (targetOf w))
  | 0x04 => .instr (.beq (rsOf w) (rtOf w) (immOf w))
  | 0x05 => .instr (.bne (rsOf w) (rtOf w) (immOf w))
  | 0x08 => .instr (.addi (rtOf w) (rsOf w) (immOf w))
  | 0x09 => .instr (.addiu (rtOf w) (rsOf w) (immOf w))
  | 0x0A => .instr (.slti (rtOf w) (rsOf w) (immOf w))
  | 0x0D => .instr (.ori (rtOf w) (rsOf w) (immOf w))
  | 0x0F => .instr (.lui (rtOf w) (immOf w))
  | 0x23 => .instr (.lw (rtOf w) (rsOf w) (immOf w))
  | 0x2B => .instr (.sw (rtOf w) (rsOf w) (immOf w))
  | _ => .unimplementedOpcode

/-- The class of four bytes in memory order. -/
def decodeBytes (b0 b1 b2 b3 : Byte) : Decoded := decode (wordOfBytes b0 b1 b2 b3)

/-! ## The encoder -/

/-- R-type (R52): opcode, rs, rt, rd, shamt, funct. -/
def encodeR (opcode : BitVec 6) (rs rt rd : RegNum) (shamt : BitVec 5) (funct : BitVec 6) : Word :=
  opcode ++ fieldOfReg rs ++ fieldOfReg rt ++ fieldOfReg rd ++ shamt ++ funct

/-- I-type (R53): opcode, rs, rt, imm. -/
def encodeI (opcode : BitVec 6) (rs rt : RegNum) (imm : BitVec 16) : Word :=
  opcode ++ fieldOfReg rs ++ fieldOfReg rt ++ imm

/-- J-type (R54): opcode, target. -/
def encodeJ (opcode : BitVec 6) (target : BitVec 26) : Word := opcode ++ target

/-- The word of an instruction, with the fields it does not use written 0 (R55, R66). -/
def encode : Instr → Word
  | .sll rd rt shamt => encodeR 0x00#6 0 rt rd (BitVec.ofNat 5 shamt) 0x00#6
  | .jr rs => encodeR 0x00#6 rs 0 0 0#5 0x08#6
  | .syscall => encodeR 0x00#6 0 0 0 0#5 0x0C#6
  | .add rd rs rt => encodeR 0x00#6 rs rt rd 0#5 0x20#6
  | .addu rd rs rt => encodeR 0x00#6 rs rt rd 0#5 0x21#6
  | .sub rd rs rt => encodeR 0x00#6 rs rt rd 0#5 0x22#6
  | .or rd rs rt => encodeR 0x00#6 rs rt rd 0#5 0x25#6
  | .slt rd rs rt => encodeR 0x00#6 rs rt rd 0#5 0x2A#6
  | .mul rd rs rt => encodeR 0x1C#6 rs rt rd 0#5 0x02#6
  | .j target => encodeJ 0x02#6 target
  | .jal target => encodeJ 0x03#6 target
  | .beq rs rt imm => encodeI 0x04#6 rs rt imm
  | .bne rs rt imm => encodeI 0x05#6 rs rt imm
  | .addi rt rs imm => encodeI 0x08#6 rs rt imm
  | .addiu rt rs imm => encodeI 0x09#6 rs rt imm
  | .slti rt rs imm => encodeI 0x0A#6 rs rt imm
  | .ori rt rs imm => encodeI 0x0D#6 rs rt imm
  | .lui rt imm => encodeI 0x0F#6 0 rt imm
  | .lw rt rs imm => encodeI 0x23#6 rs rt imm
  | .sw rt rs imm => encodeI 0x2B#6 rs rt imm

/-! ## The opcode table as data (spec/opcode_table.json; R55, R56) -/

/-- A row: the words `w` with `w &&& mask = pattern` are the instruction `mnemonic`, and `used` has a one for each
bit that its selection or its operands read (R52 to R58). -/
structure TableRow where
  mnemonic : String
  pattern  : Word
  mask     : Word
  used     : Word
  deriving DecidableEq, Repr

/-- The row of an instruction. The mask is 0xFC00003F under opcodes 0 and 0x1C and 0xFC000000 elsewhere (R56). -/
def Instr.row : Instr → TableRow
  | .sll _ _ _ => ⟨"sll", 0x00000000#32, 0xFC00003F#32, 0xFC1FFFFF#32⟩
  | .jr _ => ⟨"jr", 0x00000008#32, 0xFC00003F#32, 0xFFE0003F#32⟩
  | .syscall => ⟨"syscall", 0x0000000C#32, 0xFC00003F#32, 0xFC00003F#32⟩
  | .add _ _ _ => ⟨"add", 0x00000020#32, 0xFC00003F#32, 0xFFFFF83F#32⟩
  | .addu _ _ _ => ⟨"addu", 0x00000021#32, 0xFC00003F#32, 0xFFFFF83F#32⟩
  | .sub _ _ _ => ⟨"sub", 0x00000022#32, 0xFC00003F#32, 0xFFFFF83F#32⟩
  | .or _ _ _ => ⟨"or", 0x00000025#32, 0xFC00003F#32, 0xFFFFF83F#32⟩
  | .slt _ _ _ => ⟨"slt", 0x0000002A#32, 0xFC00003F#32, 0xFFFFF83F#32⟩
  | .mul _ _ _ => ⟨"mul", 0x70000002#32, 0xFC00003F#32, 0xFFFFF83F#32⟩
  | .j _ => ⟨"j", 0x08000000#32, 0xFC000000#32, 0xFFFFFFFF#32⟩
  | .jal _ => ⟨"jal", 0x0C000000#32, 0xFC000000#32, 0xFFFFFFFF#32⟩
  | .beq _ _ _ => ⟨"beq", 0x10000000#32, 0xFC000000#32, 0xFFFFFFFF#32⟩
  | .bne _ _ _ => ⟨"bne", 0x14000000#32, 0xFC000000#32, 0xFFFFFFFF#32⟩
  | .addi _ _ _ => ⟨"addi", 0x20000000#32, 0xFC000000#32, 0xFFFFFFFF#32⟩
  | .addiu _ _ _ => ⟨"addiu", 0x24000000#32, 0xFC000000#32, 0xFFFFFFFF#32⟩
  | .slti _ _ _ => ⟨"slti", 0x28000000#32, 0xFC000000#32, 0xFFFFFFFF#32⟩
  | .ori _ _ _ => ⟨"ori", 0x34000000#32, 0xFC000000#32, 0xFFFFFFFF#32⟩
  | .lui _ _ => ⟨"lui", 0x3C000000#32, 0xFC000000#32, 0xFC1FFFFF#32⟩
  | .lw _ _ _ => ⟨"lw", 0x8C000000#32, 0xFC000000#32, 0xFFFFFFFF#32⟩
  | .sw _ _ _ => ⟨"sw", 0xAC000000#32, 0xFC000000#32, 0xFFFFFFFF#32⟩

/-- One instruction of each row, in the table's order. -/
def tableInstrs : List Instr :=
  [.sll 0 0 0, .jr 0, .syscall, .add 0 0 0, .addu 0 0 0, .sub 0 0 0, .or 0 0 0, .slt 0 0 0, .mul 0 0 0] ++
  [.j 0, .jal 0, .beq 0 0 0, .bne 0 0 0, .addi 0 0 0, .addiu 0 0 0, .slti 0 0 0, .ori 0 0 0, .lui 0 0] ++
  [.lw 0 0 0, .sw 0 0 0]

/-- The 20 rows of spec/opcode_table.json. -/
def opcodeTable : List TableRow := tableInstrs.map Instr.row

/-! ## The host's view of the decoder -/

/-- Byte `k` in memory order of an instruction whose bits are `w`, those above `nbits` being 0. -/
def tableByte (nbits w k : Nat) : Byte := byteOfWord (BitVec.ofNat 32 (w % 2 ^ nbits)) k

/-- The instruction the decoder reads from a word of the opcode table (bit 0 the least significant). -/
def decodeTableWord (nbits w : Nat) : Option Instr :=
  match decodeBytes (tableByte nbits w 0) (tableByte nbits w 1) (tableByte nbits w 2) (tableByte nbits w 3) with
  | .instr i => some i
  | .unmatchedFunction => none
  | .unimplementedOpcode => none

end Sys2Proof
end

