-- ==== Sys2Proof/Config.lean ====
section
/-! DEFINITION. What the platform fixes for a run (the parameters of 00_scope.md R10) and the free values. -/

namespace Sys2Proof

/-- A range of byte addresses, `base` up to but not including `base + size`. -/
structure Region where
  base : Nat
  size : Nat
  deriving DecidableEq, Repr

/-- `DUMP_INDEX_PAD` (00_scope.md R10): the pad character of a register index in the dump. -/
inductive DumpPad where
  | space
  | zero
  deriving DecidableEq, Repr

/-- `DUMP_HEX_CASE` (00_scope.md R10): the case of the hex digits a to f in the dump. -/
inductive HexCase where
  | lower
  | upper
  deriving DecidableEq, Repr

/-- The parameters of 00_scope.md R10 that hold for a whole run. No step changes them.
`memValid` is MEM_VALID as a union of ranges; M0 and IN are the launch values of State's `mem` and `cin`. -/
structure Params where
  memValid        : List Region
  inEof           : Bool
  fatalExitStatus : Int
  dumpIndexPad    : DumpPad
  dumpHexCase     : HexCase
  deriving DecidableEq, Repr

/-- The one constraint 00_scope.md R10 puts on a parameter: `FATAL_EXIT_STATUS` is nonzero. -/
abbrev Params.ok (p : Params) : Prop := p.fatalExitStatus ≠ 0

/-- FREE VALUE: the part of M0 that no entry of `State.mem` lists, by byte address
(92_eei_decisions.md D11: "No value is assumed"; log entry 2). -/
opaque Config.unloadedByte : Nat → Byte

/-- FREE VALUE: the diagnostic on CERR for a fault, by the model's counter, the fault's code (60_exceptions.md
R117) and its recorded word (93_implementation_defined.md U10: "any byte string"; log entry 5). -/
opaque Config.diagnosticText : Nat → Nat → Word → List Byte

end Sys2Proof
end

