-- ==== Sys2Proof/Machine/State.lean ====
section
/-! DEFINITION. The architectural state (10_state.md R30, R31), the reasons a step can have no next state, and the
state after reset. -/

namespace Sys2Proof.Machine

open Sys2Proof

/-- The kinds of fault (60_exceptions.md R117). Raising one ends the run in the status `faulted` (R120), which is a
NEXT state: see `State.raise`. -/
inductive FaultKind where
  | unimplementedOpcode
  | unknownSyscall
  | addressError
  | fetchError
  deriving DecidableEq, Repr

/-- The run status (10_state.md R25). -/
inductive RunStatus where
  | running
  | halted
  | faulted (kind : FaultKind) (info : Word)
  deriving DecidableEq, Repr

/-- The reasons a step has NO next state. They are not the fatal conditions of 60_exceptions.md R117, which lead to a
next state with the status `faulted`. -/
inductive Fault where
  /-- Raised by the cycle when the status is `halted` or `faulted`: "no later step exists" (10_state.md R25; log entry 3).
  Safe. -/
  | runEnded (status : RunStatus)
  /-- Raised by read_int when it needs a byte past IN and IN_EOF is false: "has no step" (44_syscall.md R113; log
  entry 6). Safe. -/
  | waitingForInput
  /-- Raised by print_string when all 2^32 bytes are backed and none is the terminator: the loop of 44_syscall.md
  R106 does not end, so the step never completes (log entry 7). Safe. -/
  | endlessString
  deriving DecidableEq, Repr

/-- The reasons an instruction has no meaning in the model. -/
inductive Refusal where
  /-- Raised by a refused arm of `exec` for an instruction that has no meaning yet (there is none). Safe. -/
  | notModelled (mnemonic : String)
  deriving DecidableEq, Repr

/-- Bytes by address, in canonical form (`Memory.wf` in Ops.lean). An address that is not listed has no value here:
`State.memRead1` says what the memory port answers there (log entry 2). -/
abbrev Memory := List Host.Cell

/-- The complete architectural state (10_state.md R30), with the parameters of the run. `cin` is what remains of IN;
`cout` and `cerr` hold what was written, oldest byte first. `freeIndex` is the model's own: it indexes the free
diagnostic text (log entry 5). -/
structure State where
  x         : Vector Word 32
  pc        : Word
  hi        : Word
  lo        : Word
  halt      : Bool
  status    : RunStatus
  mem       : Memory
  cin       : List Byte
  cout      : List Byte
  cerr      : List Byte
  params    : Params
  freeIndex : Nat
  deriving DecidableEq, Repr

/-- The register file at the first fetch: zero but for `$sp` (10_state.md R30). -/
def resetRegs : Vector Word 32 := (Vector.replicate 32 0x00000000#32).set 29 0x7FFFEFFC#32

/-- The state at the first fetch of a run with these parameters, memory image and console input (10_state.md R30;
70_reset_and_hazards.md R134, R135). -/
def State.launch (params : Params) (m0 : Memory) (input : List Byte) : State :=
  { x := resetRegs
    pc := 0x00400000#32
    hi := 0x00000000#32
    lo := 0x00000000#32
    halt := false
    status := .running
    mem := m0
    cin := input
    cout := []
    cerr := []
    params := params
    freeIndex := 0 }

/-- The parameters of `State.reset`. DESIGN CHOICE (log entries 1, 8, 9, 10): the spec leaves each open. -/
def resetParams : Params :=
  { memValid := [⟨0, 2 ^ 32⟩]
    inEof := true
    fatalExitStatus := 1
    dumpIndexPad := .space
    dumpHexCase := .lower }

/-- The machine right after reset, with no program loaded and no console input (log entries 8 and 11). -/
def State.reset : State := State.launch resetParams [] []

end Sys2Proof.Machine
end

