-- ==== Sys2Proof/Machine/Ops.lean ====
section
/-! DEFINITION. The operations that every meaning shares: registers, the PC, the memory port, the console streams, and
raising a fault. -/

namespace Sys2Proof.Machine

open Sys2Proof

/-- What a meaning or a step answers. -/
abbrev Result := Host.Outcome State Fault Refusal

/-! ## Registers and the PC -/

/-- `x[r]` (10_state.md R15). Register 0 is an ordinary register (R17). -/
def State.reg (s : State) (r : RegNum) : Word := s.x.get r

/-- `x[r] <- v` (10_state.md R15, R17). -/
def State.setReg (s : State) (r : RegNum) (v : Word) : State := { s with x := s.x.set r.val v r.isLt }

/-- `pc <- t`. -/
def State.setPc (s : State) (t : Word) : State := { s with pc := t }

/-- The sequential next PC, `pc + 4` modulo 2^32 (10_state.md R20; 40_cycle.md R72). -/
def State.advance (s : State) : State := s.setPc (s.pc + 4#32)

/-- Writing a result to a register and going on to `pc + 4`: how every computing instruction ends (41_alu.md). -/
def State.finish (s : State) (r : RegNum) (v : Word) : State := (s.setReg r v).advance

/-! ## Memory: the store of bytes -/

/-- What an address that is not listed reads as: no value (log entry 2). -/
def Memory.unlisted : Option Byte := none

/-- The byte listed at `a`. -/
def Memory.lookup : Memory → Nat → Option Byte
  | [], _ => Memory.unlisted
  | (k, b) :: rest, a => if k = a then some b else Memory.lookup rest a

/-- The memory with `b` listed at `a`, addresses kept rising. -/
def Memory.store : Memory → Nat → Byte → Memory
  | [], a, b => [(a, b)]
  | (k, c) :: rest, a, b =>
    if a < k then (a, b) :: (k, c) :: rest
    else if a = k then (a, b) :: rest
    else (k, c) :: Memory.store rest a b

/-- The canonical form: addresses strictly rising, each a 32-bit address. No entry equals what an unlisted address
reads as, because that is no value. -/
abbrev Memory.wf (m : Memory) : Prop :=
  m.Pairwise (fun p q => p.1 < q.1) ∧ ∀ p ∈ m, p.1 < 2 ^ 32

/-! ## Memory: the port MEM (00_scope.md R5) -/

/-- Whether a range holds an address. -/
def Region.holds (r : Region) (a : Nat) : Bool := decide (r.base ≤ a ∧ a < r.base + r.size)

/-- Whether byte address `a` is in MEM_VALID (20_memory.md R33). -/
def State.byteValid (s : State) (a : Word) : Bool := s.params.memValid.any (Region.holds · a.toNat)

/-- Whether a word access at `a` is aligned and has all four bytes in MEM_VALID (20_memory.md R36, R37, R40). -/
def State.wordValid (s : State) (a : Word) : Bool :=
  decide (a.toNat % 4 = 0) && s.byteValid a && s.byteValid (a + 1#32) && s.byteValid (a + 2#32) && s.byteValid (a + 3#32)

/-- The byte of M0 at `a` that no entry lists: a free value (log entry 2). -/
def unloaded (a : Word) : Byte := Config.unloadedByte a.toNat

/-- The byte that MEM_VALID's store holds at `a`. -/
def State.byteAt (s : State) (a : Word) : Byte := (Memory.lookup s.mem a.toNat).getD (unloaded a)

/-- `MemRead(a, 1)`: none when `a` is not in MEM_VALID (20_memory.md R34, R37). This is the memory as
10_state.md R31 gives it, a byte or none for each address. -/
def State.memRead1 (s : State) (a : Word) : Option Byte := if s.byteValid a then some (s.byteAt a) else none

/-- `MemRead(a, 4)`: none when the access is invalid (20_memory.md R34, R36, R37). -/
def State.memRead4 (s : State) (a : Word) : Option Word :=
  if s.wordValid a then
    some (wordOfBytes (s.byteAt a) (s.byteAt (a + 1#32)) (s.byteAt (a + 2#32)) (s.byteAt (a + 3#32)))
  else none

/-- One byte of memory replaced. -/
def State.putByte (s : State) (a : Word) (b : Byte) : State := { s with mem := Memory.store s.mem a.toNat b }

/-- The four bytes of `v` put at `a` to `a + 3`, in the byte order of 20_memory.md R34. -/
def State.putWord (s : State) (a : Word) (v : Word) : State :=
  (((s.putByte a (byteOfWord v 0)).putByte (a + 1#32) (byteOfWord v 1)).putByte (a + 2#32) (byteOfWord v 2)).putByte
    (a + 3#32) (byteOfWord v 3)

/-- `MemWrite(a, 4, v)`: none, and no byte written, when the access is invalid (20_memory.md R34, R36, R37). -/
def State.memWrite4 (s : State) (a : Word) (v : Word) : Option State :=
  if s.wordValid a then some (s.putWord a v) else none

/-! ## Console streams -/

/-- `Out(bytes)` (00_scope.md R12; 44_syscall.md R114). -/
def State.out (s : State) (bytes : List Byte) : State := { s with cout := s.cout ++ bytes }

/-- `Err(text)` (00_scope.md R12). -/
def State.err (s : State) (text : List Byte) : State := { s with cerr := s.cerr ++ text }

/-! ## Faults -/

/-- The numeric code of a fault kind (60_exceptions.md R117). -/
def FaultKind.code : FaultKind → Nat
  | .unimplementedOpcode => 1
  | .unknownSyscall => 2
  | .addressError => 3
  | .fetchError => 4

/-- The diagnostic appended to CERR: a free value (log entry 5). -/
def State.diagnostic (s : State) (kind : FaultKind) (info : Word) : List Byte :=
  Config.diagnosticText s.freeIndex kind.code info

/-- `raise Fault(kind, info)` (60_exceptions.md R120): registers, memory, PC, halt flag and console output stay, a
diagnostic goes to CERR, and the run ends in the status `faulted`. No register saves anything and no handler runs
(R122), and there is no return (R124). -/
def State.raise (s : State) (kind : FaultKind) (info : Word) : State :=
  { s.err (s.diagnostic kind info) with status := .faulted kind info, freeIndex := s.freeIndex + 1 }

/-- The process exit status that the run status implies (00_scope.md R8). -/
def State.exitStatus (s : State) : Option Int :=
  match s.status with
  | .running => none
  | .halted => some 0
  | .faulted _ _ => some s.params.fatalExitStatus

end Sys2Proof.Machine
end

