-- ==== Sys2Proof/Machine/Flags.lean ====
section
/-! DEFINITION. Comparisons. There are no flags or condition codes (10_state.md R22): `slt` and `slti` write 0 or 1 to
a general register, and `beq` and `bne` compare two registers. -/

namespace Sys2Proof.Machine

open Sys2Proof

/-- `a <s b`: `signed(a) < signed(b)` (00_scope.md R11). -/
def lessSigned (a b : Word) : Bool := decide (a.toInt < b.toInt)

/-- 0x00000001 or 0x00000000: the result of a comparison (41_alu.md R82, R89). -/
def truthWord (c : Bool) : Word := if c then 0x00000001#32 else 0x00000000#32

end Sys2Proof.Machine
end

