-- ==== Sys2Proof/Machine/Operands.lean ====
section
/-! DEFINITION. Operand forms (30_encoding.md R57, R58; 43_load_store.md R98; 40_cycle.md R73). -/

namespace Sys2Proof.Machine

open Sys2Proof

/-- `sext_32(imm)`: `addi`, `addiu`, `slti`, `lw`, `sw`. -/
def sext32 (imm : BitVec 16) : Word := imm.signExtend 32

/-- `zext_32(imm)`: `ori`. -/
def zext32 (imm : BitVec 16) : Word := imm.zeroExtend 32

/-- `{imm, 0x0000}`: `lui`. -/
def upperHalf (imm : BitVec 16) : Word := imm ++ 0x0000#16

/-- The byte offset of a branch, `sext_32(imm) << 2`. -/
def branchOffset (imm : BitVec 16) : Word := sext32 imm <<< 2

/-- The target of a taken `beq` or `bne` fetched at `p`: `p + 4#32 + (sext_32(imm) << 2)` (40_cycle.md R73). -/
def branchTarget (p : Word) (imm : BitVec 16) : Word := p + 4#32 + branchOffset imm

/-- The target of `j` and `jal` fetched at `p`: `((p + 4) & 0xF0000000) | (zext_32(target) << 2)` (40_cycle.md R73). -/
def jumpTarget (p : Word) (target : BitVec 26) : Word :=
  ((p + 4#32) &&& 0xF0000000#32) ||| (target.zeroExtend 32 <<< 2)

/-- `x[rs] + sext_32(imm)` modulo 2^32: the one data addressing mode (43_load_store.md R98; 20_memory.md R40). -/
def State.effectiveAddress (s : State) (rs : RegNum) (imm : BitVec 16) : Word := s.reg rs + sext32 imm

end Sys2Proof.Machine
end

