-- ==== Sys2Proof/Machine/Alu.lean ====
section
/-! DEFINITION. Arithmetic, logic, shift and compare (41_alu.md R77 to R90). None raises a fault; every one goes on to
`pc + 4`; a destination of register 0 is written, but for `slti`. -/

namespace Sys2Proof.Machine

open Sys2Proof

/-- `add` (R77): `x[rd] <- x[rs] + x[rt]` modulo 2^32, no overflow trap. -/
def execAdd (rd rs rt : RegNum) (s : State) : Result := .next (s.finish rd (s.reg rs + s.reg rt))

/-- `addu` (R78). -/
def execAddu (rd rs rt : RegNum) (s : State) : Result := .next (s.finish rd (s.reg rs + s.reg rt))

/-- `sub` (R79): `x[rd] <- x[rs] - x[rt]` modulo 2^32. -/
def execSub (rd rs rt : RegNum) (s : State) : Result := .next (s.finish rd (s.reg rs - s.reg rt))

/-- `sll` (R80): `x[rd] <- x[rt] << shamt`. -/
def execSll (rd rt : RegNum) (shamt : Nat) (s : State) : Result := .next (s.finish rd (s.reg rt <<< shamt))

/-- `or` (R81): `x[rd] <- x[rs] | x[rt]`. -/
def execOr (rd rs rt : RegNum) (s : State) : Result := .next (s.finish rd (s.reg rs ||| s.reg rt))

/-- `slt` (R82): 1 if `signed(x[rs]) < signed(x[rt])`, else 0. -/
def execSlt (rd rs rt : RegNum) (s : State) : Result :=
  .next (s.finish rd (truthWord (lessSigned (s.reg rs) (s.reg rt))))

/-- `mul` (R83): the low 32 bits of the signed product; HI and LO are not touched. -/
def execMul (rd rs rt : RegNum) (s : State) : Result :=
  .next (s.finish rd (BitVec.ofInt 32 ((s.reg rs).toInt * (s.reg rt).toInt)))

/-- `addi` (R84): `x[rt] <- x[rs] + sext_32(imm)` modulo 2^32, no overflow trap. -/
def execAddi (rt rs : RegNum) (imm : BitVec 16) (s : State) : Result := .next (s.finish rt (s.reg rs + sext32 imm))

/-- `addiu` (R85): the immediate is sign-extended despite the name. -/
def execAddiu (rt rs : RegNum) (imm : BitVec 16) (s : State) : Result := .next (s.finish rt (s.reg rs + sext32 imm))

/-- `ori` (R87): `x[rt] <- x[rs] | zext_32(imm)`. -/
def execOri (rt rs : RegNum) (imm : BitVec 16) (s : State) : Result := .next (s.finish rt (s.reg rs ||| zext32 imm))

/-- `lui` (R88): `x[rt] <- {imm, 0x0000}`. -/
def execLui (rt : RegNum) (imm : BitVec 16) (s : State) : Result := .next (s.finish rt (upperHalf imm))

/-- `slti` (R89): as `slt` with `sext_32(imm)`; the write is suppressed when `rt = 0`. -/
def execSlti (rt rs : RegNum) (imm : BitVec 16) (s : State) : Result :=
  if rt = 0 then .next s.advance else .next (s.finish rt (truthWord (lessSigned (s.reg rs) (sext32 imm))))

end Sys2Proof.Machine
end

