-- ==== Sys2Proof/Machine/Control.lean ====
section
/-! DEFINITION. Control transfer (42_control.md R91 to R97). There is no delay slot (R91); a transfer never checks its
target and never faults (R92). -/

namespace Sys2Proof.Machine

open Sys2Proof

/-- The end of a branch: the target if it is taken, else `pc + 4` (40_cycle.md R72). -/
def State.branch (s : State) (taken : Bool) (imm : BitVec 16) : State :=
  if taken then s.setPc (branchTarget s.pc imm) else s.advance

/-- `jr` (R93): `npc <- x[rs]`. -/
def execJr (rs : RegNum) (s : State) : Result := .next (s.setPc (s.reg rs))

/-- `beq` (R94): taken if `x[rs] == x[rt]`. -/
def execBeq (rs rt : RegNum) (imm : BitVec 16) (s : State) : Result := .next (s.branch (s.reg rs == s.reg rt) imm)

/-- `bne` (R95): taken if `x[rs] != x[rt]`. -/
def execBne (rs rt : RegNum) (imm : BitVec 16) (s : State) : Result := .next (s.branch (s.reg rs != s.reg rt) imm)

/-- `j` (R96). -/
def execJ (target : BitVec 26) (s : State) : Result := .next (s.setPc (jumpTarget s.pc target))

/-- `jal` (R97): the link in `x[31]` is `p + 4`. -/
def execJal (target : BitVec 26) (s : State) : Result :=
  .next ((s.setReg .ra (s.pc + 4#32)).setPc (jumpTarget s.pc target))

end Sys2Proof.Machine
end

