-- ==== Sys2Proof/Machine/LoadStore.lean ====
section
/-! DEFINITION. Loads and stores (43_load_store.md R98 to R101). An address that is misaligned or not backed raises
AddressError with the effective address, and nothing else happens (R98). -/

namespace Sys2Proof.Machine

open Sys2Proof

/-- `lw` (R99). -/
def execLw (rt rs : RegNum) (imm : BitVec 16) (s : State) : Result :=
  match s.memRead4 (s.effectiveAddress rs imm) with
  | some v => .next (s.finish rt v)
  | none => .next (s.raise .addressError (s.effectiveAddress rs imm))

/-- `sw` (R100). -/
def execSw (rt rs : RegNum) (imm : BitVec 16) (s : State) : Result :=
  match s.memWrite4 (s.effectiveAddress rs imm) (s.reg rt) with
  | some t => .next t.advance
  | none => .next (s.raise .addressError (s.effectiveAddress rs imm))

end Sys2Proof.Machine
end

