-- ==== Sys2Proof/Machine/Console.lean ====
section
/-! DEFINITION. Console text: decimal and hexadecimal digits, the register dump (44_syscall.md R105, R116), the byte
string of print_string (R106) and the Console Integer Parser (R110). -/

namespace Sys2Proof.Machine

open Sys2Proof

/-! ## Decimal text (R105) -/

/-- The ASCII digit of `d`, for `d < 10`. -/
def digitByte (d : Nat) : Byte := BitVec.ofNat 8 (0x30 + d)

/-- The last `k` or fewer decimal digits of `n`, no leading zeros, `"0"` for zero. -/
def decNat : Nat → Nat → List Byte
  | 0, _ => []
  | k + 1, n => (if n < 10 then [] else decNat k (n / 10)) ++ [digitByte (n % 10)]

/-- The most digits the magnitude of a 32-bit integer has. -/
def decDigits : Nat := 10

/-- `dec(n)` for an integer of 32 bits (R105). -/
def dec (n : Int) : List Byte := (if n < 0 then [0x2D#8] else []) ++ decNat decDigits n.natAbs

/-! ## The register dump (R116) -/

/-- The pad character (00_scope.md R10). -/
def padByte : DumpPad → Byte
  | .space => 0x20#8
  | .zero => 0x30#8

/-- The ASCII hexadecimal digit of `d`, for `d < 16`. -/
def hexByte (c : HexCase) (d : Nat) : Byte :=
  if d < 10 then BitVec.ofNat 8 (0x30 + d)
  else match c with
    | .lower => BitVec.ofNat 8 (0x61 + (d - 10))
    | .upper => BitVec.ofNat 8 (0x41 + (d - 10))

/-- `pad2(i)`. -/
def pad2 (p : DumpPad) (i : Nat) : List Byte :=
  if i < 10 then [padByte p, digitByte i] else [digitByte (i / 10), digitByte (i % 10)]

/-- `hex8(v)`: the most significant digit first. -/
def hex8 (c : HexCase) (v : Word) : List Byte :=
  [7, 6, 5, 4, 3, 2, 1, 0].map fun k => hexByte c (v.toNat / 16 ^ k % 16)

/-- One line: `"$" ++ pad2(i) ++ " : " ++ hex8(x[i]) ++ "\n"`. -/
def State.dumpLine (s : State) (i : RegNum) : List Byte :=
  [0x24#8] ++ pad2 s.params.dumpIndexPad i.val ++ [0x20#8, 0x3A#8, 0x20#8] ++
    hex8 s.params.dumpHexCase (s.reg i) ++ [0x0A#8]

/-- The dump: registers 0 to 31 in order. -/
def State.dump (s : State) : List Byte := (List.finRange 32).flatMap s.dumpLine

/-! ## The byte string of print_string (R106) -/

/-- How the loop of R106 ends, with the bytes it wrote. -/
inductive StringScan where
  /-- At the terminator. -/
  | terminated (bytes : List Byte)
  /-- At an address that is not in MEM_VALID. -/
  | unbacked (bytes : List Byte) (a : Word)
  /-- Never: every address was read and none held the terminator. -/
  | endless
  deriving DecidableEq, Repr

/-- The scan with one more byte written before it. -/
def StringScan.cons (b : Byte) : StringScan → StringScan
  | .terminated bytes => .terminated (b :: bytes)
  | .unbacked bytes a => .unbacked (b :: bytes) a
  | .endless => .endless

/-- The loop of R106 from `a`, for at most the given number of bytes. -/
def State.scanFrom (s : State) : Nat → Word → StringScan
  | 0, _ => .endless
  | k + 1, a =>
    match s.memRead1 a with
    | none => .unbacked [] a
    | some b => if b = 0x00#8 then .terminated [] else (s.scanFrom k (a + 1#32)).cons b

/-- The number of byte addresses: after so many bytes the loop is back at its first address, with the memory it
had there, and never ends. -/
def addressCount : Nat := 2 ^ 32

/-- The loop of R106 from `a`. -/
def State.scanString (s : State) (a : Word) : StringScan := s.scanFrom addressCount a

/-! ## The Console Integer Parser (R110) -/

/-- A digit is exactly a byte 0x30..0x39. -/
def isDigit (c : Byte) : Bool := decide (0x30 ≤ c.toNat ∧ c.toNat ≤ 0x39)

/-- `acc * 10 + (c - 0x30)` modulo 2^32. -/
def accumulate (acc : Word) (c : Byte) : Word := acc * 10#32 + BitVec.ofNat 32 (c.toNat - 0x30)

/-- The first loop of R110: the value and the input after it, the byte that ended it pushed back; none when the loop
waits for a byte that the host never supplies (R113). -/
def readDigits (eof : Bool) : Word → List Byte → Option (Word × List Byte)
  | acc, [] => if eof then some (acc, []) else none
  | acc, c :: rest => if isDigit c then readDigits eof (accumulate acc c) rest else some (acc, c :: rest)

/-- The flush of R110: the input after the next newline, or after end-of-input; none as above. -/
def flushLine (eof : Bool) : List Byte → Option (List Byte)
  | [] => if eof then some [] else none
  | c :: rest => if c = 0x0A#8 then some rest else flushLine eof rest

/-- `ReadInt()`: the value and the remaining input. -/
def readInt (eof : Bool) (input : List Byte) : Option (Word × List Byte) :=
  match readDigits eof 0 input with
  | none => none
  | some (acc, rest) =>
    match flushLine eof rest with
    | none => none
    | some left => some (acc, left)

end Sys2Proof.Machine
end

