-- ==== Sys2Proof/Machine/Syscall.lean ====
section
/-! DEFINITION. The `syscall` instruction and its services (44_syscall.md R102 to R113). -/

namespace Sys2Proof.Machine

open Sys2Proof

/-- Service 1, print_int (R105). -/
def servicePrintInt (s : State) : Result := .next (s.out (dec (s.reg .a0).toInt)).advance

/-- Service 4, print_string (R106). Bytes written before a fault stay in COUT. -/
def servicePrintString (s : State) : Result :=
  match s.scanString (s.reg .a0) with
  | .terminated bytes => .next (s.out bytes).advance
  | .unbacked bytes a => .next ((s.out bytes).raise .addressError a)
  | .endless => .fault .endlessString

/-- Service 5, read_int (R107, R113). -/
def serviceReadInt (s : State) : Result :=
  match readInt s.params.inEof s.cin with
  | some (v, rest) => .next ({ s with cin := rest }.finish .v0 v)
  | none => .fault .waitingForInput

/-- Service 10, exit (R108): the halt flag is set; the halt check of the cycle ends the run (40_cycle.md R74). -/
def serviceExit (s : State) : Result := .next { s with halt := true }.advance

/-- Service 11, print_character (R109): the low 8 bits of `x[4]`. -/
def servicePrintCharacter (s : State) : Result := .next (s.out [(s.reg .a0).extractLsb' 0 8]).advance

/-- `syscall` (R104): the service that the whole of `x[2]` selects (R102, R103); any other selector is fatal (R112). -/
def execSyscall (s : State) : Result :=
  match (s.reg .v0).toNat with
  | 1 => servicePrintInt s
  | 4 => servicePrintString s
  | 5 => serviceReadInt s
  | 10 => serviceExit s
  | 11 => servicePrintCharacter s
  | _ => .next (s.raise .unknownSyscall (s.reg .v0))

end Sys2Proof.Machine
end

