-- ==== Sys2Proof/Machine/Cycle.lean ====
section
/-! DEFINITION. The instruction cycle (40_cycle.md R68 to R76): fetch check, fetch, decode, dispatch, halt check; and
the placing of a word for the fetch. -/

namespace Sys2Proof.Machine

open Sys2Proof

/-- The word at the PC, or none when the fetch check of R68 fails (R69). -/
def State.fetch (s : State) : Option Word := s.memRead4 s.pc

/-- Dispatch and execute (R71): an instruction runs, an unmatched function code only advances the PC (30_encoding.md
R61), an unimplemented opcode is fatal (R60). -/
def dispatch (w : Word) (s : State) : Result :=
  match decode w with
  | .instr i => exec i s
  | .unmatchedFunction => .next s.advance
  | .unimplementedOpcode => .next (s.raise .unimplementedOpcode w)

/-- The halt check (R74) at the end of a step that did not fault. -/
def State.haltCheck (s : State) : State :=
  if s.status = .running ∧ s.halt = true then { s.out s.dump with status := .halted } else s

/-- A result with the halt check applied to its next state. -/
def checked : Result → Result
  | .next t => .next t.haltCheck
  | .fault f => .fault f
  | .refused r => .refused r

/-- One cycle (R68 to R74). It exists only while the status is `running` (R68; 10_state.md R25). -/
def cycle (s : State) : Result :=
  match s.status with
  | .running =>
    match s.fetch with
    | none => .next (s.raise .fetchError s.pc)
    | some w => checked (dispatch w s)
  | .halted => .fault (.runEnded s.status)
  | .faulted _ _ => .fault (.runEnded s.status)

/-- The parameters with the four bytes of the word at `a` in MEM_VALID. -/
def Params.backing (p : Params) (a : Word) : Params := { p with memValid := ⟨a.toNat, 4⟩ :: p.memValid }

/-- `s` ready to fetch the word `w`: running, the PC aligned, the word backed and placed there (log entry 11). What the
fetch does not need stays. -/
def State.placeWord (s : State) (w : Word) : State :=
  let a : Word := s.pc &&& 0xFFFFFFFC#32
  let t : State := { s with status := .running, pc := a }
  let u : State := if t.wordValid a then t else { t with params := Params.backing t.params a }
  u.putWord a w

end Sys2Proof.Machine
end

