-- ==== Sys2Proof/Safety.lean ====
section
/-! DEFINITION. The terms of the claims: arithmetic written without the model's own operations, what stays unchanged
between two states, the invariant, and the registers an instruction reads and writes (10_state.md R16). -/

namespace Sys2Proof.Machine

open Sys2Proof

/-! ## Words as numbers (00_scope.md R11) -/

/-- `v[lo+len-1 : lo]` as an unsigned number. -/
def bitsOf (w : Word) (lo len : Nat) : Nat := w.toNat / 2 ^ lo % 2 ^ len

/-- `signed(v)`. -/
def signedOf (v : Word) : Int := if v.toNat < 2 ^ 31 then (v.toNat : Int) else (v.toNat : Int) - 2 ^ 32

/-- `unsigned(sext_32(imm))`. -/
def sextNat (imm : BitVec 16) : Nat := if imm.toNat < 2 ^ 15 then imm.toNat else imm.toNat + (2 ^ 32 - 2 ^ 16)

/-- `signed(sext_32(imm))`. -/
def sextInt (imm : BitVec 16) : Int := if imm.toNat < 2 ^ 15 then (imm.toNat : Int) else (imm.toNat : Int) - 2 ^ 16

/-- `w` has this opcode and function code, and these register fields (30_encoding.md R52). -/
abbrev IsRWord (w : Word) (opcode funct : Nat) (rs rt rd : RegNum) : Prop :=
  bitsOf w 26 6 = opcode ∧ bitsOf w 0 6 = funct ∧ bitsOf w 21 5 = rs.val ∧ bitsOf w 16 5 = rt.val ∧ bitsOf w 11 5 = rd.val

/-- `w` has this opcode, these register fields and this immediate (30_encoding.md R53). -/
abbrev IsIWord (w : Word) (opcode : Nat) (rs rt : RegNum) (imm : BitVec 16) : Prop :=
  bitsOf w 26 6 = opcode ∧ bitsOf w 21 5 = rs.val ∧ bitsOf w 16 5 = rt.val ∧ bitsOf w 0 16 = imm.toNat

/-- `w` has this opcode and this target field (30_encoding.md R54). -/
abbrev IsJWord (w : Word) (opcode : Nat) (target : BitVec 26) : Prop :=
  bitsOf w 26 6 = opcode ∧ bitsOf w 0 26 = target.toNat

/-- The opcodes of 30_encoding.md R60 that are implemented. -/
def implementedOpcodes : List Nat :=
  [0x00, 0x02, 0x03, 0x04, 0x05, 0x08, 0x09, 0x0A, 0x0D, 0x0F, 0x1C, 0x23, 0x2B]

/-- The function codes of opcode 0 that are implemented (30_encoding.md R61, R63). -/
def implementedFuncts : List Nat := [0x00, 0x08, 0x0C, 0x20, 0x21, 0x22, 0x25, 0x2A]

/-- The selectors of 44_syscall.md R103. -/
def serviceCodes : List Nat := [1, 4, 5, 10, 11]

/-! ## What stays unchanged -/

/-- Every register holds what it held. -/
def SameRegs (s t : State) : Prop := ∀ r, t.reg r = s.reg r

/-- Every register but `d` holds what it held. -/
def SameRegsBut (s t : State) (d : RegNum) : Prop := ∀ r, r ≠ d → t.reg r = s.reg r

/-- Every byte of memory reads as before, the invalid ones too. -/
def SameMemory (s t : State) : Prop := ∀ a, t.memRead1 a = s.memRead1 a

/-- HI and LO hold what they held. -/
def SameHiLo (s t : State) : Prop := t.hi = s.hi ∧ t.lo = s.lo

/-- The halt flag and the run status are what they were. -/
def SameControl (s t : State) : Prop := t.halt = s.halt ∧ t.status = s.status

/-- The three streams are what they were. -/
def SameConsole (s t : State) : Prop := t.cin = s.cin ∧ t.cout = s.cout ∧ t.cerr = s.cerr

/-- The parameters of the run and the model's counter are what they were. -/
def SamePlatform (s t : State) : Prop := t.params = s.params ∧ t.freeIndex = s.freeIndex

/-- The next PC is `p + 4` modulo 2^32. -/
def Advances (s t : State) : Prop := t.pc.toNat = (s.pc.toNat + 4) % 2 ^ 32

/-- Nothing but register `d` and the PC may differ. -/
def OnlyRegister (s t : State) (d : RegNum) : Prop :=
  SameRegsBut s t d ∧ SameMemory s t ∧ SameHiLo s t ∧ SameControl s t ∧ SameConsole s t ∧ SamePlatform s t

/-- Nothing but the PC may differ. -/
def OnlyPc (s t : State) : Prop :=
  SameRegs s t ∧ SameMemory s t ∧ SameHiLo s t ∧ SameControl s t ∧ SameConsole s t ∧ SamePlatform s t

/-- Nothing but COUT and the PC differs, and COUT has gained `bytes`. -/
def OnlyOutput (s t : State) (bytes : List Byte) : Prop :=
  SameRegs s t ∧ SameMemory s t ∧ SameHiLo s t ∧ SameControl s t ∧ t.cin = s.cin ∧ t.cout = s.cout ++ bytes ∧
    t.cerr = s.cerr ∧ SamePlatform s t

/-- `raise Fault(kind, info)` after `bytes` were written in the same step (60_exceptions.md R120): the run has ended with
this status and the fatal exit status, some text was appended to CERR, and nothing else differs. -/
def Raises (s t : State) (kind : FaultKind) (info : Word) (bytes : List Byte) : Prop :=
  t.status = .faulted kind info ∧ t.exitStatus = some s.params.fatalExitStatus ∧
    SameRegs s t ∧ SameMemory s t ∧ SameHiLo s t ∧ t.pc = s.pc ∧ t.halt = s.halt ∧
    t.cin = s.cin ∧ t.cout = s.cout ++ bytes ∧ s.cerr <+: t.cerr ∧ t.params = s.params

/-- `i` completes in every state, writes `value` of the old state to register `d`, goes on to `p + 4`, and changes
nothing else. -/
def ComputesInto (i : Instr) (d : RegNum) (value : State → Nat) : Prop :=
  ∀ s, ∃ t, exec i s = .next t ∧ (t.reg d).toNat = value s ∧ Advances s t ∧ OnlyRegister s t d

/-- `i` completes in every state, sets the next PC to `target` of the old state, and changes nothing else. -/
def TransfersTo (i : Instr) (target : State → Nat) : Prop :=
  ∀ s, ∃ t, exec i s = .next t ∧ t.pc.toNat = target s ∧ OnlyPc s t

/-! ## Console text -/

/-- The number a list of decimal digits spells. -/
def digitsValue (ds : List Byte) : Nat := ds.foldl (fun n c => n * 10 + (c.toNat - 0x30)) 0

/-- `c` is one of the bytes 0x30..0x39. -/
abbrev IsDigit (c : Byte) : Prop := 0x30 ≤ c.toNat ∧ c.toNat ≤ 0x39

/-- `ds` is the decimal text of `n`: digits only, spelling `n`, no leading zero, `"0"` for zero. -/
def IsDecimal (n : Nat) (ds : List Byte) : Prop :=
  ds ≠ [] ∧ (∀ c ∈ ds, IsDigit c) ∧ digitsValue ds = n ∧ (ds.head? = some 0x30#8 → ds = [0x30#8])

/-- The longest prefix of digits. -/
def digitPrefix (line : List Byte) : List Byte := line.takeWhile fun c => decide (IsDigit c)

/-- The value of a hexadecimal digit in the given case. -/
def hexValue (c : HexCase) (b : Byte) : Option Nat :=
  if 0x30 ≤ b.toNat ∧ b.toNat ≤ 0x39 then some (b.toNat - 0x30)
  else match c with
    | .lower => if 0x61 ≤ b.toNat ∧ b.toNat ≤ 0x66 then some (b.toNat - 0x61 + 10) else none
    | .upper => if 0x41 ≤ b.toNat ∧ b.toNat ≤ 0x46 then some (b.toNat - 0x41 + 10) else none

/-- `ds` is the text of `n` in hexadecimal digits of the given case, most significant first. -/
def IsHex (c : HexCase) (n : Nat) (ds : List Byte) : Prop :=
  (∀ b ∈ ds, hexValue c b ≠ none) ∧ ds.foldl (fun m b => m * 16 + (hexValue c b).getD 0) 0 = n

/-- The bytes `str`, none of them NUL, lie in backed memory from `a` on. -/
def StringAt (s : State) (a : Word) (str : List Byte) : Prop :=
  ∀ (k : Nat) (h : k < str.length), s.memRead1 (a + BitVec.ofNat 32 k) = some str[k] ∧ str[k] ≠ 0x00#8

/-! ## The invariant -/

/-- Whether the run ended in a fault. -/
def RunStatus.isFaulted : RunStatus → Bool
  | .running => false
  | .halted => false
  | .faulted _ _ => true

/-- Only addresses of MEM_VALID are listed (10_state.md R27). -/
abbrev State.MemoryBacked (s : State) : Prop := ∀ p ∈ s.mem, s.byteValid (BitVec.ofNat 32 p.1) = true

/-- The halt flag is set exactly when the run has ended in `halted` (10_state.md R24, R25). -/
abbrev State.HaltMatchesStatus (s : State) : Prop := s.halt = true ↔ s.status = .halted

/-- Nothing is on CERR before a fault (00_scope.md R7: it "receives fatal diagnostics"). -/
abbrev State.QuietUntilFault (s : State) : Prop := s.status.isFaulted = true ∨ s.cerr = []

/-- HI and LO hold their reset value (10_state.md R21). -/
abbrev State.HiLoUnused (s : State) : Prop := s.hi = 0 ∧ s.lo = 0

/-- What every step keeps. -/
abbrev State.Inv (s : State) : Prop :=
  Memory.wf s.mem ∧ s.MemoryBacked ∧ s.HaltMatchesStatus ∧ s.QuietUntilFault ∧ s.HiLoUnused ∧ s.params.ok

/-! ## The registers an instruction reads and writes (10_state.md R16) -/

/-- The registers `i` writes in state `s`. -/
def destRegs (i : Instr) (s : State) : List RegNum :=
  match i with
  | .sll rd _ _ => [rd]
  | .add rd _ _ | .addu rd _ _ | .sub rd _ _ | .or rd _ _ | .slt rd _ _ | .mul rd _ _ => [rd]
  | .addi rt _ _ | .addiu rt _ _ | .ori rt _ _ | .lui rt _ | .lw rt _ _ => [rt]
  | .slti rt _ _ => if rt = 0 then [] else [rt]
  | .jal _ => [.ra]
  | .syscall => if (s.reg .v0).toNat = 5 then [.v0] else []
  | .jr _ | .j _ | .beq _ _ _ | .bne _ _ _ | .sw _ _ _ => []

/-- The registers `i` reads in state `s`. -/
def sourceRegs (i : Instr) (s : State) : List RegNum :=
  match i with
  | .sll _ rt _ => [rt]
  | .add _ rs rt | .addu _ rs rt | .sub _ rs rt | .or _ rs rt | .slt _ rs rt | .mul _ rs rt => [rs, rt]
  | .addi _ rs _ | .addiu _ rs _ | .ori _ rs _ | .slti _ rs _ | .lw _ rs _ | .jr rs => [rs]
  | .sw rt rs _ | .beq rs rt _ | .bne rs rt _ => [rs, rt]
  | .lui _ _ | .j _ | .jal _ => []
  | .syscall => if (s.reg .v0).toNat = 1 ∨ (s.reg .v0).toNat = 4 ∨ (s.reg .v0).toNat = 11 then [.v0, .a0] else [.v0]

end Sys2Proof.Machine
end

