-- ==== Sys2Proof/Certificates/Slice0/Obligations.lean ====
section
/-! DEFINITION. The statements for the provers. OBLIGATIONS.json lists them with the rules they rest on. -/

open Sys2Proof Sys2Proof.Machine

/-! ## Encoding -/

/-- Words written out from the encodings of 30_encoding.md R52 to R55 and the examples of 41_alu.md to 44_syscall.md.
-/
def Obligations.SampleWordsDecode : Prop :=
  decode 0x01095020 = .instr (.add 10 8 9) ∧ decode 0x71095002 = .instr (.mul 10 8 9) ∧
  decode 0x00095100 = .instr (.sll 10 9 4) ∧ decode 0x2109000A = .instr (.addi 9 8 10) ∧
  decode 0x3C081001 = .instr (.lui 8 0x1001) ∧ decode 0xAFA9FFFC = .instr (.sw 9 29 0xFFFC) ∧
  decode 0x1500FFFD = .instr (.bne 8 0 0xFFFD) ∧ decode 0x0C100008 = .instr (.jal 0x100008) ∧
  decode 0x03E0F808 = .instr (.jr 31) ∧ decode 0x0000000C = .instr .syscall ∧
  decode 0x03E0F809 = .unmatchedFunction ∧ decode 0x30080001 = .unimplementedOpcode

/-- Decoding the word of a well-formed instruction gives the instruction back, with every operand. -/
def Obligations.DecodeOfEncodeIsTheInstruction : Prop :=
  ∀ i : Instr, i.wf = true → decode (encode i) = .instr i

/-- The other direction: a word that decodes to an instruction is that instruction's word but for the bits the
instruction does not use, which the encoder writes 0 (30_encoding.md R66). -/
def Obligations.EncodeOfDecodeKeepsUsedBits : Prop :=
  ∀ (w : Word) (i : Instr), decode w = .instr i → i.wf = true ∧ encode i = w &&& i.row.used

/-- The decoder and the 20 rows of the opcode table select the same words for each instruction. -/
def Obligations.DecoderFollowsTheOpcodeTable : Prop :=
  opcodeTable.length = 20 ∧
  (∀ (w : Word) (i : Instr), decode w = .instr i → i.row ∈ opcodeTable ∧ w &&& i.row.mask = i.row.pattern) ∧
  (∀ (w : Word) (r : TableRow), r ∈ opcodeTable → w &&& r.mask = r.pattern → ∃ i, decode w = .instr i ∧ i.row = r)

/-- A field that an instruction does not use may hold any value: the word decodes to the same instruction. -/
def Obligations.UnusedFieldsAreIgnored : Prop :=
  ∀ (w w' : Word) (i : Instr), decode w = .instr i → w' &&& i.row.used = w &&& i.row.used → decode w' = .instr i

/-- Every word is in one class: unimplemented by its opcode, unmatched by its function code, else an instruction. -/
def Obligations.EveryWordIsInOneClass : Prop :=
  ∀ w : Word,
    (decode w = .unimplementedOpcode ↔ bitsOf w 26 6 ∉ implementedOpcodes) ∧
    (decode w = .unmatchedFunction ↔
      (bitsOf w 26 6 = 0x00 ∧ bitsOf w 0 6 ∉ implementedFuncts) ∨ (bitsOf w 26 6 = 0x1C ∧ bitsOf w 0 6 ≠ 0x02)) ∧
    ((∃ i, decode w = .instr i) ↔
      (bitsOf w 26 6 ∈ implementedOpcodes ∧ bitsOf w 26 6 ≠ 0x00 ∧ bitsOf w 26 6 ≠ 0x1C) ∨
      (bitsOf w 26 6 = 0x00 ∧ bitsOf w 0 6 ∈ implementedFuncts) ∨ (bitsOf w 26 6 = 0x1C ∧ bitsOf w 0 6 = 0x02))

/-! ## Arithmetic, logic, shift and compare: encoding, result and frame -/

/-- R77, R78: both write the sum modulo 2^32, with no trap. -/
def Obligations.AddAndAdduWrap : Prop :=
  (∀ w rs rt rd, IsRWord w 0x00 0x20 rs rt rd → decode w = .instr (.add rd rs rt)) ∧
  (∀ w rs rt rd, IsRWord w 0x00 0x21 rs rt rd → decode w = .instr (.addu rd rs rt)) ∧
  (∀ rd rs rt, ComputesInto (.add rd rs rt) rd fun s => ((s.reg rs).toNat + (s.reg rt).toNat) % 2 ^ 32) ∧
  (∀ rd rs rt, ComputesInto (.addu rd rs rt) rd fun s => ((s.reg rs).toNat + (s.reg rt).toNat) % 2 ^ 32)

/-- R79: the difference modulo 2^32. -/
def Obligations.SubWraps : Prop :=
  (∀ w rs rt rd, IsRWord w 0x00 0x22 rs rt rd → decode w = .instr (.sub rd rs rt)) ∧
  (∀ rd rs rt, ComputesInto (.sub rd rs rt) rd fun s =>
    (((s.reg rs).toNat : Int) - ((s.reg rt).toNat : Int)).emod (2 ^ 32) |>.toNat)

/-- R80: bits shifted out of bit 31 are lost, zeros enter; `rs` takes no part. -/
def Obligations.SllShiftsLeft : Prop :=
  (∀ w rs rt rd, IsRWord w 0x00 0x00 rs rt rd → decode w = .instr (.sll rd rt (bitsOf w 6 5))) ∧
  (∀ rd rt shamt, ComputesInto (.sll rd rt shamt) rd fun s => (s.reg rt).toNat * 2 ^ shamt % 2 ^ 32)

/-- R81: bitwise or. -/
def Obligations.OrIsBitwise : Prop :=
  (∀ w rs rt rd, IsRWord w 0x00 0x25 rs rt rd → decode w = .instr (.or rd rs rt)) ∧
  (∀ rd rs rt, ComputesInto (.or rd rs rt) rd fun s => (s.reg rs).toNat ||| (s.reg rt).toNat)

/-- R82: 1 or 0, by the signed comparison. -/
def Obligations.SltComparesSigned : Prop :=
  (∀ w rs rt rd, IsRWord w 0x00 0x2A rs rt rd → decode w = .instr (.slt rd rs rt)) ∧
  (∀ rd rs rt, ComputesInto (.slt rd rs rt) rd fun s => if signedOf (s.reg rs) < signedOf (s.reg rt) then 1 else 0)

/-- R83: the low 32 bits of the signed product. -/
def Obligations.MulKeepsTheLowWord : Prop :=
  (∀ w rs rt rd, IsRWord w 0x1C 0x02 rs rt rd → decode w = .instr (.mul rd rs rt)) ∧
  (∀ rd rs rt, ComputesInto (.mul rd rs rt) rd fun s =>
    ((signedOf (s.reg rs) * signedOf (s.reg rt)).emod (2 ^ 32)).toNat)

/-- The spec's own inference under R83 ("the result does not depend on signedness"): the result is also the low word
of the unsigned product. -/
def Obligations.MulDoesNotDependOnSignedness : Prop :=
  ∀ rd rs rt, ComputesInto (.mul rd rs rt) rd fun s => (s.reg rs).toNat * (s.reg rt).toNat % 2 ^ 32

/-- R84, R85: the immediate is sign-extended, the sum wraps, and the two instructions have one effect. -/
def Obligations.AddiAndAddiuWrap : Prop :=
  (∀ w rs rt imm, IsIWord w 0x08 rs rt imm → decode w = .instr (.addi rt rs imm)) ∧
  (∀ w rs rt imm, IsIWord w 0x09 rs rt imm → decode w = .instr (.addiu rt rs imm)) ∧
  (∀ rt rs imm, ComputesInto (.addi rt rs imm) rt fun s => ((s.reg rs).toNat + sextNat imm) % 2 ^ 32) ∧
  (∀ rt rs imm, ComputesInto (.addiu rt rs imm) rt fun s => ((s.reg rs).toNat + sextNat imm) % 2 ^ 32) ∧
  (∀ rt rs imm s, exec (.addi rt rs imm) s = exec (.addiu rt rs imm) s)

/-- R87: the immediate is zero-extended. -/
def Obligations.OriZeroExtends : Prop :=
  (∀ w rs rt imm, IsIWord w 0x0D rs rt imm → decode w = .instr (.ori rt rs imm)) ∧
  (∀ rt rs imm, ComputesInto (.ori rt rs imm) rt fun s => (s.reg rs).toNat ||| imm.toNat)

/-- R88: the immediate in bits 31..16, zeros below; `rs` takes no part. -/
def Obligations.LuiLoadsTheUpperHalf : Prop :=
  (∀ w rs rt imm, IsIWord w 0x0F rs rt imm → decode w = .instr (.lui rt imm)) ∧
  (∀ rt imm, ComputesInto (.lui rt imm) rt fun _ => imm.toNat * 2 ^ 16)

/-- R89: as `slt` with the sign-extended immediate; with `rt = 0` no register is written. -/
def Obligations.SltiSuppressesRegisterZero : Prop :=
  (∀ w rs rt imm, IsIWord w 0x0A rs rt imm → decode w = .instr (.slti rt rs imm)) ∧
  (∀ rt rs imm, rt ≠ 0 → ComputesInto (.slti rt rs imm) rt fun s =>
    if signedOf (s.reg rs) < sextInt imm then 1 else 0) ∧
  (∀ rs imm s, ∃ t, exec (.slti 0 rs imm) s = .next t ∧ Advances s t ∧ OnlyPc s t)

/-! ## Control transfer -/

/-- R93: the next PC is `x[rs]`, whatever it is. -/
def Obligations.JrJumpsToTheRegister : Prop :=
  (∀ w rs rt rd, IsRWord w 0x00 0x08 rs rt rd → decode w = .instr (.jr rs)) ∧
  (∀ rs, TransfersTo (.jr rs) fun s => (s.reg rs).toNat)

/-- R94, R95: the two branches, taken and not taken. -/
def Obligations.BranchesCompareRegisters : Prop :=
  (∀ w rs rt imm, IsIWord w 0x04 rs rt imm → decode w = .instr (.beq rs rt imm)) ∧
  (∀ w rs rt imm, IsIWord w 0x05 rs rt imm → decode w = .instr (.bne rs rt imm)) ∧
  (∀ rs rt imm, TransfersTo (.beq rs rt imm) fun s =>
    if s.reg rs = s.reg rt then (s.pc.toNat + 4 + sextNat imm * 4) % 2 ^ 32 else (s.pc.toNat + 4) % 2 ^ 32) ∧
  (∀ rs rt imm, TransfersTo (.bne rs rt imm) fun s =>
    if s.reg rs = s.reg rt then (s.pc.toNat + 4) % 2 ^ 32 else (s.pc.toNat + 4 + sextNat imm * 4) % 2 ^ 32)

/-- R96: the top four bits of `p + 4` and the target field times 4. -/
def Obligations.JumpStaysInItsRegion : Prop :=
  (∀ w target, IsJWord w 0x02 target → decode w = .instr (.j target)) ∧
  (∀ target, TransfersTo (.j target) fun s => (s.pc.toNat + 4) % 2 ^ 32 / 2 ^ 28 * 2 ^ 28 + target.toNat * 4)

/-- R97: the target of `j`, and the link `p + 4` in register 31. -/
def Obligations.JalLinksThePcPlusFour : Prop :=
  (∀ w target, IsJWord w 0x03 target → decode w = .instr (.jal target)) ∧
  (∀ target s, ∃ t, exec (.jal target) s = .next t ∧
    t.pc.toNat = (s.pc.toNat + 4) % 2 ^ 32 / 2 ^ 28 * 2 ^ 28 + target.toNat * 4 ∧
    (t.reg 31).toNat = (s.pc.toNat + 4) % 2 ^ 32 ∧ OnlyRegister s t 31)

/-- The corner case of R93 and R97: `jr $ra` after `jal` goes to the word right after the `jal`. -/
def Obligations.JrReturnsBehindTheJal : Prop :=
  ∀ target s t, exec (.jal target) s = .next t → ∃ u, exec (.jr 31) t = .next u ∧ Advances s u

/-- 42_control.md section 1 (R92): every instruction but `jr` keeps a word-aligned PC word-aligned. -/
def Obligations.TransfersKeepThePcAligned : Prop :=
  ∀ i s t, exec i s = .next t → s.pc.toNat % 4 = 0 → (∀ rs, i ≠ .jr rs) → t.pc.toNat % 4 = 0

/-! ## Loads and stores -/

/-- 43_load_store.md: the word at an aligned, backed address goes to `rt`; else AddressError. The byte order (D2) and
the fault (D4) are the spec's own choices. -/
def Obligations.LwLoadsTheWord : Prop :=
  (∀ w rs rt imm, IsIWord w 0x23 rs rt imm → decode w = .instr (.lw rt rs imm)) ∧
  (∀ (rs : RegNum) (imm : BitVec 16) (s : State),
    (s.effectiveAddress rs imm).toNat = ((s.reg rs).toNat + sextNat imm) % 2 ^ 32) ∧
  (∀ rt rs imm s b0 b1 b2 b3, (s.effectiveAddress rs imm).toNat % 4 = 0 →
    s.memRead1 (s.effectiveAddress rs imm) = some b0 → s.memRead1 (s.effectiveAddress rs imm + 1#32) = some b1 →
    s.memRead1 (s.effectiveAddress rs imm + 2#32) = some b2 → s.memRead1 (s.effectiveAddress rs imm + 3#32) = some b3 →
    ∃ t, exec (.lw rt rs imm) s = .next t ∧
      (t.reg rt).toNat = b0.toNat + b1.toNat * 2 ^ 8 + b2.toNat * 2 ^ 16 + b3.toNat * 2 ^ 24 ∧
      Advances s t ∧ OnlyRegister s t rt) ∧
  (∀ rt rs imm s,
    ((s.effectiveAddress rs imm).toNat % 4 ≠ 0 ∨
      ∃ k < 4, s.memRead1 (s.effectiveAddress rs imm + BitVec.ofNat 32 k) = none) →
    ∃ t, exec (.lw rt rs imm) s = .next t ∧ Raises s t .addressError (s.effectiveAddress rs imm) [])

/-- 43_load_store.md: the four bytes of `x[rt]` go to an aligned, backed address, the least significant first, and
every byte outside them reads as before; else AddressError and no byte is written. The byte order (D2) and the fault
(D4) are the spec's own choices. -/
def Obligations.SwStoresTheWord : Prop :=
  (∀ w rs rt imm, IsIWord w 0x2B rs rt imm → decode w = .instr (.sw rt rs imm)) ∧
  (∀ (rs : RegNum) (imm : BitVec 16) (s : State),
    (s.effectiveAddress rs imm).toNat = ((s.reg rs).toNat + sextNat imm) % 2 ^ 32) ∧
  (∀ rt rs imm s ea, s.effectiveAddress rs imm = ea → ea.toNat % 4 = 0 →
    (∀ k < 4, s.memRead1 (ea + BitVec.ofNat 32 k) ≠ none) →
    ∃ t, exec (.sw rt rs imm) s = .next t ∧
      (∀ k < 4, ∃ b, t.memRead1 (ea + BitVec.ofNat 32 k) = some b ∧ b.toNat = (s.reg rt).toNat / 2 ^ (8 * k) % 2 ^ 8) ∧
      (∀ a, (∀ k < 4, a ≠ ea + BitVec.ofNat 32 k) → t.memRead1 a = s.memRead1 a) ∧
      Advances s t ∧ SameRegs s t ∧ SameHiLo s t ∧ SameControl s t ∧ SameConsole s t ∧ SamePlatform s t) ∧
  (∀ rt rs imm s ea, s.effectiveAddress rs imm = ea →
    (ea.toNat % 4 ≠ 0 ∨ ∃ k < 4, s.memRead1 (ea + BitVec.ofNat 32 k) = none) →
    ∃ t, exec (.sw rt rs imm) s = .next t ∧ Raises s t .addressError ea [])

/-- The spec's inference R101: what `sw` stored, `lw` loads from the same address, whatever was stored to other
addresses in between. -/
def Obligations.LoadReturnsTheStoredWord : Prop :=
  ∀ rt rs imm rt' rs' imm' (s t u : State) (stores : List (Word × Word)),
    exec (.sw rt rs imm) s = .next t → t.status = .running →
    stores.foldlM (fun u p => u.memWrite4 p.1 p.2) t = some u →
    (∀ p ∈ stores, p.1 ≠ s.effectiveAddress rs imm) →
    u.effectiveAddress rs' imm' = s.effectiveAddress rs imm →
    ∃ v, exec (.lw rt' rs' imm') u = .next v ∧ v.reg rt' = s.reg rt ∧ v.status = .running

/-- The byte order (the spec's own choice D2): byte `k` of a stored word, and of a loaded word, is bits `8k+7` to `8k`
of it. -/
def Obligations.ByteOfAStoredWord : Prop :=
  (∀ (s t : State) (a v : Word) (k : Nat), s.memWrite4 a v = some t → k < 4 →
    ∃ b, t.memRead1 (a + BitVec.ofNat 32 k) = some b ∧ b.toNat = bitsOf v (8 * k) 8) ∧
  (∀ (s : State) (a v : Word) (k : Nat), s.memRead4 a = some v → k < 4 →
    ∃ b, s.memRead1 (a + BitVec.ofNat 32 k) = some b ∧ b.toNat = bitsOf v (8 * k) 8)

/-- 20_memory.md section 6 (R47, the spec's inference): a store to `p + 4` is what the next step fetches. -/
def Obligations.NextFetchSeesTheStore : Prop :=
  ∀ rt rs imm s t, exec (.sw rt rs imm) s = .next t → t.status = .running →
    s.effectiveAddress rs imm = s.pc + 4#32 → t.fetch = some (s.reg rt) ∧ step t = checked (dispatch (s.reg rt) t)

/-! ## The syscall services -/

/-- Service 1: the decimal text of `signed(x[4])` goes to COUT; the exact text is the spec's own choice D14. -/
def Obligations.PrintIntWritesDecimal : Prop :=
  ∀ s, (s.reg 2).toNat = 1 → ∃ t ds, exec .syscall s = .next t ∧ IsDecimal (signedOf (s.reg 4)).natAbs ds ∧
    Advances s t ∧ OnlyOutput s t ((if signedOf (s.reg 4) < 0 then [0x2D#8] else []) ++ ds)

/-- Service 4: the bytes before the terminator go to COUT; at an unbacked byte the step faults and the bytes before it
stay. The byte reads and the fault are the spec's own choices D6 and D9. -/
def Obligations.PrintStringWritesUpToNul : Prop :=
  ∀ s str, (s.reg 2).toNat = 4 → StringAt s (s.reg 4) str →
    (s.memRead1 (s.reg 4 + BitVec.ofNat 32 str.length) = some 0x00#8 →
      ∃ t, exec .syscall s = .next t ∧ Advances s t ∧ OnlyOutput s t str) ∧
    (s.memRead1 (s.reg 4 + BitVec.ofNat 32 str.length) = none →
      ∃ t, exec .syscall s = .next t ∧ Raises s t .addressError (s.reg 4 + BitVec.ofNat 32 str.length) str)

/-- R106's loop has no length limit: over a memory with no NUL and no unbacked byte the step never completes. The stop
is the model's reading (log entry 7). -/
def Obligations.EndlessStringHasNoStep : Prop :=
  ∀ s, (s.reg 2).toNat = 4 →
    ((∀ a, ∃ b, s.memRead1 a = some b ∧ b ≠ 0x00#8) ↔ exec .syscall s = .fault .endlessString)

/-- Service 5: the value of the leading digits modulo 2^32 (the width is the spec's own choice D12), and the input
consumed up to and including the next newline, or all of it at end-of-input; with neither, there is no step (the
spec's own choice D13, as the fault of log entry 6). -/
def Obligations.ReadIntTakesOneLine : Prop :=
  (∀ s line rest, (s.reg 2).toNat = 5 → 0x0A#8 ∉ line → s.cin = line ++ [0x0A#8] ++ rest →
    ∃ t, exec .syscall s = .next t ∧ (t.reg 2).toNat = digitsValue (digitPrefix line) % 2 ^ 32 ∧ t.cin = rest ∧
      Advances s t ∧ SameRegsBut s t 2 ∧ SameMemory s t ∧ SameHiLo s t ∧ SameControl s t ∧ t.cout = s.cout ∧
      t.cerr = s.cerr ∧ SamePlatform s t) ∧
  (∀ s, (s.reg 2).toNat = 5 → 0x0A#8 ∉ s.cin → s.params.inEof = true →
    ∃ t, exec .syscall s = .next t ∧ (t.reg 2).toNat = digitsValue (digitPrefix s.cin) % 2 ^ 32 ∧ t.cin = [] ∧
      Advances s t ∧ SameRegsBut s t 2 ∧ SameMemory s t ∧ SameHiLo s t ∧ SameControl s t ∧ t.cout = s.cout ∧
      t.cerr = s.cerr ∧ SamePlatform s t) ∧
  (∀ s, (s.reg 2).toNat = 5 → 0x0A#8 ∉ s.cin → s.params.inEof = false → exec .syscall s = .fault .waitingForInput)

/-- Services 1 and 5 together: what print_int writes for a word that is not negative, read_int reads back from a line.
-/
def Obligations.ReadIntReadsBackPrintInt : Prop :=
  ∀ s t u rest, (s.reg 2).toNat = 1 → 0 ≤ signedOf (s.reg 4) → s.cout = [] → exec .syscall s = .next t →
    (u.reg 2).toNat = 5 → u.cin = t.cout ++ [0x0A#8] ++ rest →
    ∃ v, exec .syscall u = .next v ∧ v.reg 2 = s.reg 4 ∧ v.cin = rest

/-- Service 10: `exit` sets the halt flag, goes on to `p + 4` and does nothing else. -/
def Obligations.ExitSetsTheHaltFlag : Prop :=
  ∀ s, (s.reg 2).toNat = 10 → ∃ t, exec .syscall s = .next t ∧ t.halt = true ∧ t.status = s.status ∧ Advances s t ∧
    SameRegs s t ∧ SameMemory s t ∧ SameHiLo s t ∧ SameConsole s t ∧ SamePlatform s t

/-- R109: exactly one byte, the low 8 bits of `x[4]`. -/
def Obligations.PrintCharacterWritesOneByte : Prop :=
  ∀ s, (s.reg 2).toNat = 11 → ∃ t b, exec .syscall s = .next t ∧ b.toNat = (s.reg 4).toNat % 2 ^ 8 ∧
    Advances s t ∧ OnlyOutput s t [b]

/-- The whole of `x[2]` selects, and any other selector is fatal with nothing written to COUT (the end of the run is
the spec's own choice D8). -/
def Obligations.UnknownSelectorIsFatal : Prop :=
  (∀ w rs rt rd, IsRWord w 0x00 0x0C rs rt rd → decode w = .instr .syscall) ∧
  (∀ s, (s.reg 2).toNat ∉ serviceCodes → ∃ t, exec .syscall s = .next t ∧ Raises s t .unknownSyscall (s.reg 2) [])

/-! ## The cycle -/

/-- 40_cycle.md section 1: a running machine whose PC is aligned and whose four bytes there decode to `i` runs `i` and
then the halt check. -/
def Obligations.StepRunsTheDecodedInstruction : Prop :=
  ∀ s i b0 b1 b2 b3, s.status = .running → s.pc.toNat % 4 = 0 →
    s.memRead1 s.pc = some b0 → s.memRead1 (s.pc + 1#32) = some b1 →
    s.memRead1 (s.pc + 2#32) = some b2 → s.memRead1 (s.pc + 3#32) = some b3 →
    decode (b3 ++ b2 ++ b1 ++ b0) = .instr i → step s = checked (exec i s)

/-- The halt check of 40_cycle.md (R74): a set halt flag of a running machine ends the run with the dump; otherwise
nothing happens. -/
def Obligations.HaltCheckAddsTheDump : Prop :=
  ∀ s, (s.status = .running → s.halt = true →
      s.haltCheck.status = .halted ∧ s.haltCheck.cout = s.cout ++ s.dump ∧ s.haltCheck.exitStatus = some 0 ∧
      SameRegs s s.haltCheck ∧ SameMemory s s.haltCheck ∧ SameHiLo s s.haltCheck ∧ s.haltCheck.pc = s.pc ∧
      s.haltCheck.halt = s.halt ∧ s.haltCheck.cin = s.cin ∧ s.haltCheck.cerr = s.cerr ∧ SamePlatform s s.haltCheck) ∧
    (¬(s.status = .running ∧ s.halt = true) → s.haltCheck = s)

/-- Service 10 in a whole step: the step that runs `exit` ends the run `Halted` with status 0, the dump on COUT and the
PC at `p + 4`, and no step follows. The terminal status and the exit status are the spec's own choices D8 and D20; that
no step exists is the model's `runEnded` (log entry 3). -/
def Obligations.ExitEndsTheRun : Prop :=
  ∀ s w, s.status = .running → s.fetch = some w → decode w = .instr .syscall → (s.reg 2).toNat = 10 →
    ∃ t, step s = .next t ∧ t.status = .halted ∧ t.halt = true ∧ t.exitStatus = some 0 ∧ Advances s t ∧
      t.cout = s.cout ++ s.dump ∧ SameRegs s t ∧ SameMemory s t ∧ step t = .fault (.runEnded .halted)

/-- The dump of 44_syscall.md section 6 (details: the spec's own choice D16): 32 lines in order, each the index, the
separator, eight hexadecimal digits of the register and a newline. -/
def Obligations.DumpListsTheRegisters : Prop :=
  ∀ s : State, ∃ line : RegNum → List Byte, s.dump = (List.finRange 32).flatMap line ∧
    ∀ i : RegNum, ∃ hs, hs.length = 8 ∧ IsHex s.params.dumpHexCase (s.reg i).toNat hs ∧
      line i = [0x24#8] ++
        [if i.val < 10 then (match s.params.dumpIndexPad with | .space => 0x20#8 | .zero => 0x30#8)
          else BitVec.ofNat 8 (0x30 + i.val / 10), BitVec.ofNat 8 (0x30 + i.val % 10)] ++
        [0x20#8, 0x3A#8, 0x20#8] ++ hs ++ [0x0A#8]

/-- R59: the all-zero word changes nothing but the PC, whatever `x[0]` holds, as its full decode `sll $0,$0,0` does;
any other word that decodes to `sll` with `rd = 0` writes `x[0]`. -/
def Obligations.ZeroWordOnlyAdvances : Prop :=
  (∀ s, s.status = .running → s.halt = false → s.fetch = some 0x00000000#32 →
    ∃ t, step s = .next t ∧ Advances s t ∧ OnlyPc s t) ∧
  (∀ s, ∃ t, exec (.sll 0 0 0) s = .next t ∧ Advances s t ∧ OnlyPc s t) ∧
  (∀ s w rt shamt, s.status = .running → s.halt = false → s.fetch = some w → decode w = .instr (.sll 0 rt shamt) →
    ∃ t, step s = .next t ∧ (t.reg 0).toNat = (s.reg rt).toNat * 2 ^ shamt % 2 ^ 32 ∧ Advances s t ∧ OnlyRegister s t 0)

/-- An unmatched function code under opcode 0 or 0x1C changes nothing but the PC (the spec's own choice D7). -/
def Obligations.UnmatchedFunctionOnlyAdvances : Prop :=
  ∀ s w, s.status = .running → s.halt = false → s.fetch = some w →
    (bitsOf w 26 6 = 0x00 ∧ bitsOf w 0 6 ∉ implementedFuncts) ∨ (bitsOf w 26 6 = 0x1C ∧ bitsOf w 0 6 ≠ 0x02) →
    ∃ t, step s = .next t ∧ Advances s t ∧ OnlyPc s t

/-- An unimplemented opcode ends the run before any effect, with the raw word recorded (the end of the run is the
spec's own choice D8; the text on CERR is the model's free value, log entry 5). -/
def Obligations.UnimplementedOpcodeIsFatal : Prop :=
  ∀ s w, s.status = .running → s.fetch = some w → bitsOf w 26 6 ∉ implementedOpcodes →
    ∃ t, step s = .next t ∧ Raises s t .unimplementedOpcode w []

/-- A running machine whose PC is misaligned or not backed faults with the PC and has no other effect (the spec's own
choice D5). -/
def Obligations.BadFetchIsFatal : Prop :=
  ∀ s, s.status = .running →
    (s.pc.toNat % 4 ≠ 0 ∨ ∃ k < 4, s.memRead1 (s.pc + BitVec.ofNat 32 k) = none) →
    ∃ t, step s = .next t ∧ Raises s t .fetchError s.pc []

/-- `Halted` and `Faulted` are terminal (the spec's own choices D8, D20); that no step exists is the model's
`runEnded` (log entry 3). -/
def Obligations.EndedRunsHaveNoStep : Prop :=
  ∀ s, s.status ≠ .running → step s = .fault (.runEnded s.status)

/-! ## Whole-machine rules -/

/-- 60_exceptions.md section 1: a step ends `Faulted` exactly in these cases, the earlier before the later (the spec's
own choices D4 to D6, D8, D19). -/
def Obligations.EachFaultHasItsCause : Prop :=
  ∀ s t kind info, s.status = .running → step s = .next t → (t.status = .faulted kind info ↔
    (s.fetch = none ∧ kind = .fetchError ∧ info = s.pc) ∨
    ∃ w, s.fetch = some w ∧
      ((decode w = .unimplementedOpcode ∧ kind = .unimplementedOpcode ∧ info = w) ∨
       (∃ rt rs imm, (decode w = .instr (.lw rt rs imm) ∨ decode w = .instr (.sw rt rs imm)) ∧
          s.wordValid (s.effectiveAddress rs imm) = false ∧ kind = .addressError ∧ info = s.effectiveAddress rs imm) ∨
       (decode w = .instr .syscall ∧ (s.reg 2).toNat ∉ serviceCodes ∧ kind = .unknownSyscall ∧ info = s.reg 2) ∨
       (decode w = .instr .syscall ∧ (s.reg 2).toNat = 4 ∧ kind = .addressError ∧
          ∃ str, StringAt s (s.reg 4) str ∧ info = s.reg 4 + BitVec.ofNat 32 str.length ∧ s.memRead1 info = none)))

/-- 60_exceptions.md section 1 (the spec's own choice D9): a fault leaves registers, HI and LO, memory, PC, halt flag
and console input as they were at the start of the step; only service 4 may have written to COUT. -/
def Obligations.FaultsArePrecise : Prop :=
  ∀ s t kind info, s.status = .running → step s = .next t → t.status = .faulted kind info →
    ∃ bytes, Raises s t kind info bytes ∧
      (bytes ≠ [] → kind = .addressError ∧ (s.reg 2).toNat = 4 ∧
        ∃ w, s.fetch = some w ∧ decode w = .instr .syscall)

/-- The transitions of the run status in 40_cycle.md section 2 (the spec's own choices D8, D20). -/
def Obligations.StatusTransitions : Prop :=
  ∀ s t, step s = .next t → s.status = .running ∧
    (t.status = .running ∧ t.halt = false ∨ t.status = .halted ∧ t.halt = true ∨ t.status.isFaulted = true)

/-- The spec's inference R50: only `sw` changes memory, and only at the four bytes of its effective address. -/
def Obligations.OnlyStoresChangeMemory : Prop :=
  ∀ s t a, step s = .next t → t.memRead1 a ≠ s.memRead1 a →
    ∃ w rt rs imm, s.fetch = some w ∧ decode w = .instr (.sw rt rs imm) ∧
      ∃ k < 4, a = s.effectiveAddress rs imm + BitVec.ofNat 32 k

/-- The halt flag of 10_state.md section 3 (R24): the `exit` service sets it, nothing else does, nothing clears it, and
nothing is fetched once a step has left it set; that no step exists then is the model's fault (log entry 3). -/
def Obligations.OnlyExitSetsTheHaltFlag : Prop :=
  (∀ s t, step s = .next t →
    (s.halt = true → t.halt = true) ∧
    (s.halt = false → (t.halt = true ↔ ∃ w, s.fetch = some w ∧ decode w = .instr .syscall ∧ (s.reg 2).toNat = 10))) ∧
  (∀ s t, step s = .next t → t.halt = true → ∃ f, step t = .fault f)

/-- The column of writes of 10_state.md's table: a step changes no register but those of the instruction it runs. -/
def Obligations.OnlyDestinationsChange : Prop :=
  ∀ s t r, step s = .next t → t.reg r ≠ s.reg r →
    ∃ w i, s.fetch = some w ∧ decode w = .instr i ∧ r ∈ destRegs i s

/-- The column of reads of 10_state.md's table: another value in a register the instruction does not read changes
nothing but that register, and nothing at all if the instruction writes it. -/
def Obligations.OnlySourcesMatter : Prop :=
  ∀ i s r v, s.status = .running → r ∉ sourceRegs i s →
    (∀ t, exec i s = .next t → t.status = .running →
      exec i (s.setReg r v) = .next (if r ∈ destRegs i s then t else t.setReg r v)) ∧
    (∀ t, exec i s = .next t → t.status ≠ .running → exec i (s.setReg r v) = .next (t.setReg r v)) ∧
    (∀ f, exec i s = .fault f → exec i (s.setReg r v) = .fault f)

/-- "The core never reads either" (00_scope.md section 4): with other text already there, a step does the same and
appends the same. -/
def Obligations.OutputIsNeverRead : Prop :=
  ∀ s t c e, s.cout = [] → s.cerr = [] → step s = .next t →
    step { s with cout := c, cerr := e } = .next { t with cout := c ++ t.cout, cerr := e ++ t.cerr }

/-- 00_scope.md section 4: a step appends to COUT and CERR, takes from the front of CIN, and never changes the
parameters. -/
def Obligations.StreamsMoveOneWay : Prop :=
  ∀ s t, step s = .next t → s.cout <+: t.cout ∧ s.cerr <+: t.cerr ∧ t.cin <:+ s.cin ∧ t.params = s.params

/-- 10_state.md section 3: no step changes HI or LO. -/
def Obligations.HiAndLoNeverChange : Prop :=
  ∀ s t, step s = .next t → t.hi = s.hi ∧ t.lo = s.lo

/-- Every step keeps the invariant of the model (Safety.lean): the memory's canonical form inside MEM_VALID, the halt
flag matching the status, CERR empty until a fault, HI and LO zero, the fatal exit status nonzero. -/
def Obligations.StepKeepsTheInvariant : Prop :=
  ∀ s t : State, s.Inv → step s = .next t → t.Inv

/-- Every state that a launched run reaches has the invariant, for any parameters, any image inside MEM_VALID and any
console input. -/
def Obligations.LaunchedRunsKeepTheInvariant : Prop :=
  ∀ (p : Params) (m0 : Memory) (input : List Byte) (n : Nat) (t : State),
    p.ok → Memory.wf m0 → (State.launch p m0 input).MemoryBacked →
    Sys2Proof.core.run n (State.launch p m0 input) = .next t → t.Inv

/-- The invariant holds at reset. -/
def Obligations.ResetHasTheInvariant : Prop := State.reset.Inv

/-- R134: the state before the first cycle, for every image, input and parameters, and where the first cycle fetches;
`State.reset` is one of these states. -/
def Obligations.LaunchState : Prop :=
  (∀ p m0 input, (State.launch p m0 input).mem = m0 ∧ (State.launch p m0 input).reg 29 = 0x7FFFEFFC#32 ∧
    (∀ r : RegNum, r ≠ 29 → (State.launch p m0 input).reg r = 0x00000000#32) ∧
    (State.launch p m0 input).pc = 0x00400000#32 ∧ (State.launch p m0 input).halt = false ∧
    (State.launch p m0 input).status = .running ∧ (State.launch p m0 input).cin = input ∧
    (State.launch p m0 input).cout = [] ∧ (State.launch p m0 input).cerr = [] ∧ (State.launch p m0 input).params = p ∧
    (State.launch p m0 input).fetch = (State.launch p m0 input).memRead4 0x00400000#32) ∧
  (∃ p m0 input, State.reset = State.launch p m0 input)

/-- The load that stands for the Loader, the model's choice (log entry 11): the next fetch after `withFetchWord` gives
the placed word. -/
def Obligations.PlacedWordIsFetched : Prop :=
  ∀ (s : State) (w : Word), (s.withFetchWord 32 w.toNat).fetch = some w ∧
    (s.withFetchWord 32 w.toNat).status = .running
end

