-- ==== Sys2Proof/Laws/Decode.lean ====
section
/-! SUPPORT. The fields of a word as numbers, the fields of an encoding, and the words the decoder gives to each
instruction (30_encoding.md R52 to R65). -/

namespace Sys2Proof

open Sys2Proof.Machine

theorem toNat_append_eq {m n : Nat} (a : BitVec m) (b : BitVec n) : (a ++ b).toNat = a.toNat * 2 ^ n + b.toNat := by
  rw [BitVec.toNat_append, Nat.shiftLeft_eq, mul_comm]
  exact (Nat.two_pow_add_eq_or_of_lt b.isLt _).symm

/-! ## Fields as numbers -/

theorem toNat_extract (w : Word) (lo len : Nat) : (w.extractLsb' lo len).toNat = bitsOf w lo len := by
  simp [bitsOf, BitVec.extractLsb'_toNat, Nat.shiftRight_eq_div_pow]

@[simp] theorem toNat_opcodeOf (w : Word) : (opcodeOf w).toNat = bitsOf w 26 6 := toNat_extract w 26 6
@[simp] theorem toNat_functOf (w : Word) : (functOf w).toNat = bitsOf w 0 6 := toNat_extract w 0 6
@[simp] theorem toNat_immOf (w : Word) : (immOf w).toNat = bitsOf w 0 16 := toNat_extract w 0 16
@[simp] theorem toNat_targetOf (w : Word) : (targetOf w).toNat = bitsOf w 0 26 := toNat_extract w 0 26
@[simp] theorem val_rsOf (w : Word) : (rsOf w).val = bitsOf w 21 5 := toNat_extract w 21 5
@[simp] theorem val_rtOf (w : Word) : (rtOf w).val = bitsOf w 16 5 := toNat_extract w 16 5
@[simp] theorem val_rdOf (w : Word) : (rdOf w).val = bitsOf w 11 5 := toNat_extract w 11 5
@[simp] theorem shamtOf_eq (w : Word) : shamtOf w = bitsOf w 6 5 := toNat_extract w 6 5

theorem rsOf_eq {w : Word} {r : RegNum} (h : bitsOf w 21 5 = r.val) : rsOf w = r := Fin.ext (by simpa using h)
theorem rtOf_eq {w : Word} {r : RegNum} (h : bitsOf w 16 5 = r.val) : rtOf w = r := Fin.ext (by simpa using h)
theorem rdOf_eq {w : Word} {r : RegNum} (h : bitsOf w 11 5 = r.val) : rdOf w = r := Fin.ext (by simpa using h)
theorem immOf_eq {w : Word} {i : BitVec 16} (h : bitsOf w 0 16 = i.toNat) : immOf w = i :=
  BitVec.eq_of_toNat_eq (by simpa using h)
theorem targetOf_eq {w : Word} {t : BitVec 26} (h : bitsOf w 0 26 = t.toNat) : targetOf w = t :=
  BitVec.eq_of_toNat_eq (by simpa using h)

@[simp] theorem toNat_fieldOfReg (r : RegNum) : (fieldOfReg r).toNat = r.val := rfl

/-! ## Encodings as numbers -/

theorem toNat_encodeR (op : BitVec 6) (rs rt rd : RegNum) (sh : BitVec 5) (fn : BitVec 6) :
    (encodeR op rs rt rd sh fn).toNat =
      op.toNat * 2 ^ 26 + rs.val * 2 ^ 21 + rt.val * 2 ^ 16 + rd.val * 2 ^ 11 + sh.toNat * 2 ^ 6 + fn.toNat := by
  have h : (encodeR op rs rt rd sh fn).toNat =
    (op ++ fieldOfReg rs ++ fieldOfReg rt ++ fieldOfReg rd ++ sh ++ fn).toNat := rfl
  rw [h]
  simp only [toNat_append_eq, toNat_fieldOfReg]
  omega

theorem toNat_encodeI (op : BitVec 6) (rs rt : RegNum) (imm : BitVec 16) :
    (encodeI op rs rt imm).toNat = op.toNat * 2 ^ 26 + rs.val * 2 ^ 21 + rt.val * 2 ^ 16 + imm.toNat := by
  have h : (encodeI op rs rt imm).toNat = (op ++ fieldOfReg rs ++ fieldOfReg rt ++ imm).toNat := rfl
  rw [h]
  simp only [toNat_append_eq, toNat_fieldOfReg]
  omega

theorem toNat_encodeJ (op : BitVec 6) (target : BitVec 26) :
    (encodeJ op target).toNat = op.toNat * 2 ^ 26 + target.toNat := by
  have h : (encodeJ op target).toNat = (op ++ target).toNat := rfl
  rw [h, toNat_append_eq]

/-- The six fields of an R-type encoding are the six fields it was built from. -/
theorem bits_encodeR (op : BitVec 6) (rs rt rd : RegNum) (sh : BitVec 5) (fn : BitVec 6) :
    bitsOf (encodeR op rs rt rd sh fn) 26 6 = op.toNat ∧ bitsOf (encodeR op rs rt rd sh fn) 21 5 = rs.val ∧
    bitsOf (encodeR op rs rt rd sh fn) 16 5 = rt.val ∧ bitsOf (encodeR op rs rt rd sh fn) 11 5 = rd.val ∧
    bitsOf (encodeR op rs rt rd sh fn) 6 5 = sh.toNat ∧ bitsOf (encodeR op rs rt rd sh fn) 0 6 = fn.toNat := by
  simp only [bitsOf, toNat_encodeR]
  have := op.isLt; have := rs.isLt; have := rt.isLt; have := rd.isLt; have := sh.isLt; have := fn.isLt
  omega

theorem bits_encodeI (op : BitVec 6) (rs rt : RegNum) (imm : BitVec 16) :
    bitsOf (encodeI op rs rt imm) 26 6 = op.toNat ∧ bitsOf (encodeI op rs rt imm) 21 5 = rs.val ∧
    bitsOf (encodeI op rs rt imm) 16 5 = rt.val ∧ bitsOf (encodeI op rs rt imm) 0 16 = imm.toNat := by
  simp only [bitsOf, toNat_encodeI]
  have := op.isLt; have := rs.isLt; have := rt.isLt; have := imm.isLt
  omega

theorem bits_encodeJ (op : BitVec 6) (target : BitVec 26) :
    bitsOf (encodeJ op target) 26 6 = op.toNat ∧ bitsOf (encodeJ op target) 0 26 = target.toNat := by
  simp only [bitsOf, toNat_encodeJ]
  have := op.isLt; have := target.isLt
  omega

/-- A word is the R-type encoding of its six fields. -/
theorem encodeR_fields (w : Word) :
    encodeR (opcodeOf w) (rsOf w) (rtOf w) (rdOf w) (w.extractLsb' 6 5) (functOf w) = w := by
  apply BitVec.eq_of_toNat_eq
  simp only [toNat_encodeR, toNat_opcodeOf, val_rsOf, val_rtOf, val_rdOf, toNat_extract, toNat_functOf, bitsOf]
  have := w.isLt
  omega

theorem encodeI_fields (w : Word) : encodeI (opcodeOf w) (rsOf w) (rtOf w) (immOf w) = w := by
  apply BitVec.eq_of_toNat_eq
  simp only [toNat_encodeI, toNat_opcodeOf, val_rsOf, val_rtOf, toNat_immOf, bitsOf]
  have := w.isLt
  omega

theorem encodeJ_fields (w : Word) : encodeJ (opcodeOf w) (targetOf w) = w := by
  apply BitVec.eq_of_toNat_eq
  simp only [toNat_encodeJ, toNat_opcodeOf, toNat_targetOf, bitsOf]
  have := w.isLt
  omega

/-- A mask of whole fields acts field by field. -/
theorem encodeR_and (op op' : BitVec 6) (rs rt rd rs' rt' rd' : RegNum) (sh sh' : BitVec 5) (fn fn' : BitVec 6) :
    encodeR op rs rt rd sh fn &&& encodeR op' rs' rt' rd' sh' fn' =
      encodeR (op &&& op') (regOfField (fieldOfReg rs &&& fieldOfReg rs'))
        (regOfField (fieldOfReg rt &&& fieldOfReg rt')) (regOfField (fieldOfReg rd &&& fieldOfReg rd'))
        (sh &&& sh') (fn &&& fn') := by
  have h : ∀ f : BitVec 5, fieldOfReg (regOfField f) = f := fun _ => rfl
  have e : ((op ++ fieldOfReg rs ++ fieldOfReg rt ++ fieldOfReg rd ++ sh ++ fn) &&&
      (op' ++ fieldOfReg rs' ++ fieldOfReg rt' ++ fieldOfReg rd' ++ sh' ++ fn')) =
      ((op &&& op') ++ (fieldOfReg rs &&& fieldOfReg rs') ++ (fieldOfReg rt &&& fieldOfReg rt') ++
        (fieldOfReg rd &&& fieldOfReg rd') ++ (sh &&& sh') ++ (fn &&& fn')) := by
    simp only [BitVec.and_append]
  exact e

/-! ## What the decoder answers -/

/-- `w` is a word of `i`: its opcode and function code select `i`, and its fields are the operands of `i` (R55 to R58). -/
def IsWordOf (w : Word) : Instr → Prop
  | .sll rd rt shamt => bitsOf w 26 6 = 0x00 ∧ bitsOf w 0 6 = 0x00 ∧ rd = rdOf w ∧ rt = rtOf w ∧ shamt = bitsOf w 6 5
  | .jr rs => bitsOf w 26 6 = 0x00 ∧ bitsOf w 0 6 = 0x08 ∧ rs = rsOf w
  | .syscall => bitsOf w 26 6 = 0x00 ∧ bitsOf w 0 6 = 0x0C
  | .add rd rs rt => bitsOf w 26 6 = 0x00 ∧ bitsOf w 0 6 = 0x20 ∧ rd = rdOf w ∧ rs = rsOf w ∧ rt = rtOf w
  | .addu rd rs rt => bitsOf w 26 6 = 0x00 ∧ bitsOf w 0 6 = 0x21 ∧ rd = rdOf w ∧ rs = rsOf w ∧ rt = rtOf w
  | .sub rd rs rt => bitsOf w 26 6 = 0x00 ∧ bitsOf w 0 6 = 0x22 ∧ rd = rdOf w ∧ rs = rsOf w ∧ rt = rtOf w
  | .or rd rs rt => bitsOf w 26 6 = 0x00 ∧ bitsOf w 0 6 = 0x25 ∧ rd = rdOf w ∧ rs = rsOf w ∧ rt = rtOf w
  | .slt rd rs rt => bitsOf w 26 6 = 0x00 ∧ bitsOf w 0 6 = 0x2A ∧ rd = rdOf w ∧ rs = rsOf w ∧ rt = rtOf w
  | .mul rd rs rt => bitsOf w 26 6 = 0x1C ∧ bitsOf w 0 6 = 0x02 ∧ rd = rdOf w ∧ rs = rsOf w ∧ rt = rtOf w
  | .j target => bitsOf w 26 6 = 0x02 ∧ target = targetOf w
  | .jal target => bitsOf w 26 6 = 0x03 ∧ target = targetOf w
  | .beq rs rt imm => bitsOf w 26 6 = 0x04 ∧ rs = rsOf w ∧ rt = rtOf w ∧ imm = immOf w
  | .bne rs rt imm => bitsOf w 26 6 = 0x05 ∧ rs = rsOf w ∧ rt = rtOf w ∧ imm = immOf w
  | .addi rt rs imm => bitsOf w 26 6 = 0x08 ∧ rs = rsOf w ∧ rt = rtOf w ∧ imm = immOf w
  | .addiu rt rs imm => bitsOf w 26 6 = 0x09 ∧ rs = rsOf w ∧ rt = rtOf w ∧ imm = immOf w
  | .slti rt rs imm => bitsOf w 26 6 = 0x0A ∧ rs = rsOf w ∧ rt = rtOf w ∧ imm = immOf w
  | .ori rt rs imm => bitsOf w 26 6 = 0x0D ∧ rs = rsOf w ∧ rt = rtOf w ∧ imm = immOf w
  | .lui rt imm => bitsOf w 26 6 = 0x0F ∧ rt = rtOf w ∧ imm = immOf w
  | .lw rt rs imm => bitsOf w 26 6 = 0x23 ∧ rs = rsOf w ∧ rt = rtOf w ∧ imm = immOf w
  | .sw rt rs imm => bitsOf w 26 6 = 0x2B ∧ rs = rsOf w ∧ rt = rtOf w ∧ imm = immOf w

theorem decode_of_isWordOf {w : Word} {i : Instr} (h : IsWordOf w i) : decode w = .instr i := by
  cases i <;> simp only [IsWordOf] at h <;>
    simp [decode, decodeSpecial, decodeSpecial2, h]

/-- Everything the decoder can answer: an instruction whose word this is, or one of the two other classes. -/
theorem decode_cases (w : Word) :
    (∃ i, decode w = .instr i ∧ IsWordOf w i) ∨
    (decode w = .unmatchedFunction ∧
      ((bitsOf w 26 6 = 0x00 ∧ bitsOf w 0 6 ∉ implementedFuncts) ∨ (bitsOf w 26 6 = 0x1C ∧ bitsOf w 0 6 ≠ 0x02))) ∨
    (decode w = .unimplementedOpcode ∧ bitsOf w 26 6 ∉ implementedOpcodes) := by
  unfold decode decodeSpecial decodeSpecial2
  simp only [toNat_opcodeOf, toNat_functOf]
  split
  · split <;> first
      | exact .inl ⟨_, rfl, by simp [IsWordOf, *]⟩
      | (refine .inr (.inl ⟨rfl, .inl ⟨by assumption, ?_⟩⟩); simp only [implementedFuncts, List.mem_cons, List.not_mem_nil, or_false, not_or]
         refine ⟨?_, ?_, ?_, ?_, ?_, ?_, ?_, ?_⟩ <;> assumption)
  · split <;> first
      | exact .inl ⟨_, rfl, by simp [IsWordOf, *]⟩
      | (refine .inr (.inl ⟨rfl, .inr ⟨by assumption, by assumption⟩⟩))
  all_goals first
    | exact .inl ⟨_, rfl, by simp [IsWordOf, *]⟩
    | (refine .inr (.inr ⟨rfl, ?_⟩); simp only [implementedOpcodes, List.mem_cons, List.not_mem_nil, or_false, not_or]
       refine ⟨?_, ?_, ?_, ?_, ?_, ?_, ?_, ?_, ?_, ?_, ?_, ?_, ?_⟩ <;> assumption)

theorem decode_eq_instr {w : Word} {i : Instr} : decode w = .instr i ↔ IsWordOf w i := by
  refine ⟨fun h => ?_, decode_of_isWordOf⟩
  rcases decode_cases w with ⟨j, hj, hw⟩ | ⟨hu, -⟩ | ⟨hu, -⟩
  · rw [hj] at h; cases h; exact hw
  · rw [hu] at h; cases h
  · rw [hu] at h; cases h

end Sys2Proof
end

