-- ==== Sys2Proof/Laws/State.lean ====
section
/-! SUPPORT. One lemma per field per update of the state, and the register read after each update. -/

namespace Sys2Proof.Machine

open Sys2Proof

variable (s : State)

/-! ## `State.setReg`: registers -/

@[simp] theorem State.setReg_x (r : RegNum) (v : Word) : (s.setReg r v).x = s.x.set r.val v r.isLt := rfl
@[simp] theorem State.setReg_pc (r : RegNum) (v : Word) : (s.setReg r v).pc = s.pc := rfl
@[simp] theorem State.setReg_hi (r : RegNum) (v : Word) : (s.setReg r v).hi = s.hi := rfl
@[simp] theorem State.setReg_lo (r : RegNum) (v : Word) : (s.setReg r v).lo = s.lo := rfl
@[simp] theorem State.setReg_halt (r : RegNum) (v : Word) : (s.setReg r v).halt = s.halt := rfl
@[simp] theorem State.setReg_status (r : RegNum) (v : Word) : (s.setReg r v).status = s.status := rfl
@[simp] theorem State.setReg_mem (r : RegNum) (v : Word) : (s.setReg r v).mem = s.mem := rfl
@[simp] theorem State.setReg_cin (r : RegNum) (v : Word) : (s.setReg r v).cin = s.cin := rfl
@[simp] theorem State.setReg_cout (r : RegNum) (v : Word) : (s.setReg r v).cout = s.cout := rfl
@[simp] theorem State.setReg_cerr (r : RegNum) (v : Word) : (s.setReg r v).cerr = s.cerr := rfl
@[simp] theorem State.setReg_params (r : RegNum) (v : Word) : (s.setReg r v).params = s.params := rfl
@[simp] theorem State.setReg_freeIndex (r : RegNum) (v : Word) : (s.setReg r v).freeIndex = s.freeIndex := rfl

/-! ## `State.setPc`: the PC -/

@[simp] theorem State.setPc_x (t : Word) : (s.setPc t).x = s.x := rfl
@[simp] theorem State.setPc_pc (t : Word) : (s.setPc t).pc = t := rfl
@[simp] theorem State.setPc_hi (t : Word) : (s.setPc t).hi = s.hi := rfl
@[simp] theorem State.setPc_lo (t : Word) : (s.setPc t).lo = s.lo := rfl
@[simp] theorem State.setPc_halt (t : Word) : (s.setPc t).halt = s.halt := rfl
@[simp] theorem State.setPc_status (t : Word) : (s.setPc t).status = s.status := rfl
@[simp] theorem State.setPc_mem (t : Word) : (s.setPc t).mem = s.mem := rfl
@[simp] theorem State.setPc_cin (t : Word) : (s.setPc t).cin = s.cin := rfl
@[simp] theorem State.setPc_cout (t : Word) : (s.setPc t).cout = s.cout := rfl
@[simp] theorem State.setPc_cerr (t : Word) : (s.setPc t).cerr = s.cerr := rfl
@[simp] theorem State.setPc_params (t : Word) : (s.setPc t).params = s.params := rfl
@[simp] theorem State.setPc_freeIndex (t : Word) : (s.setPc t).freeIndex = s.freeIndex := rfl
@[simp] theorem State.setPc_reg (t : Word) (r' : RegNum) : (s.setPc t).reg r' = s.reg r' := rfl

/-! ## `State.advance`: the sequential next PC -/

@[simp] theorem State.advance_x : s.advance.x = s.x := rfl
@[simp] theorem State.advance_pc : s.advance.pc = s.pc + 4#32 := rfl
@[simp] theorem State.advance_hi : s.advance.hi = s.hi := rfl
@[simp] theorem State.advance_lo : s.advance.lo = s.lo := rfl
@[simp] theorem State.advance_halt : s.advance.halt = s.halt := rfl
@[simp] theorem State.advance_status : s.advance.status = s.status := rfl
@[simp] theorem State.advance_mem : s.advance.mem = s.mem := rfl
@[simp] theorem State.advance_cin : s.advance.cin = s.cin := rfl
@[simp] theorem State.advance_cout : s.advance.cout = s.cout := rfl
@[simp] theorem State.advance_cerr : s.advance.cerr = s.cerr := rfl
@[simp] theorem State.advance_params : s.advance.params = s.params := rfl
@[simp] theorem State.advance_freeIndex : s.advance.freeIndex = s.freeIndex := rfl
@[simp] theorem State.advance_reg (r' : RegNum) : s.advance.reg r' = s.reg r' := rfl

/-! ## `State.finish`: a result and the sequential next PC -/

@[simp] theorem State.finish_x (r : RegNum) (v : Word) : (s.finish r v).x = s.x.set r.val v r.isLt := rfl
@[simp] theorem State.finish_pc (r : RegNum) (v : Word) : (s.finish r v).pc = s.pc + 4#32 := rfl
@[simp] theorem State.finish_hi (r : RegNum) (v : Word) : (s.finish r v).hi = s.hi := rfl
@[simp] theorem State.finish_lo (r : RegNum) (v : Word) : (s.finish r v).lo = s.lo := rfl
@[simp] theorem State.finish_halt (r : RegNum) (v : Word) : (s.finish r v).halt = s.halt := rfl
@[simp] theorem State.finish_status (r : RegNum) (v : Word) : (s.finish r v).status = s.status := rfl
@[simp] theorem State.finish_mem (r : RegNum) (v : Word) : (s.finish r v).mem = s.mem := rfl
@[simp] theorem State.finish_cin (r : RegNum) (v : Word) : (s.finish r v).cin = s.cin := rfl
@[simp] theorem State.finish_cout (r : RegNum) (v : Word) : (s.finish r v).cout = s.cout := rfl
@[simp] theorem State.finish_cerr (r : RegNum) (v : Word) : (s.finish r v).cerr = s.cerr := rfl
@[simp] theorem State.finish_params (r : RegNum) (v : Word) : (s.finish r v).params = s.params := rfl
@[simp] theorem State.finish_freeIndex (r : RegNum) (v : Word) : (s.finish r v).freeIndex = s.freeIndex := rfl

/-! ## `State.putByte`: one byte of memory -/

@[simp] theorem State.putByte_x (a : Word) (b : Byte) : (s.putByte a b).x = s.x := rfl
@[simp] theorem State.putByte_pc (a : Word) (b : Byte) : (s.putByte a b).pc = s.pc := rfl
@[simp] theorem State.putByte_hi (a : Word) (b : Byte) : (s.putByte a b).hi = s.hi := rfl
@[simp] theorem State.putByte_lo (a : Word) (b : Byte) : (s.putByte a b).lo = s.lo := rfl
@[simp] theorem State.putByte_halt (a : Word) (b : Byte) : (s.putByte a b).halt = s.halt := rfl
@[simp] theorem State.putByte_status (a : Word) (b : Byte) : (s.putByte a b).status = s.status := rfl
@[simp] theorem State.putByte_mem (a : Word) (b : Byte) : (s.putByte a b).mem = Memory.store s.mem a.toNat b := rfl
@[simp] theorem State.putByte_cin (a : Word) (b : Byte) : (s.putByte a b).cin = s.cin := rfl
@[simp] theorem State.putByte_cout (a : Word) (b : Byte) : (s.putByte a b).cout = s.cout := rfl
@[simp] theorem State.putByte_cerr (a : Word) (b : Byte) : (s.putByte a b).cerr = s.cerr := rfl
@[simp] theorem State.putByte_params (a : Word) (b : Byte) : (s.putByte a b).params = s.params := rfl
@[simp] theorem State.putByte_freeIndex (a : Word) (b : Byte) : (s.putByte a b).freeIndex = s.freeIndex := rfl
@[simp] theorem State.putByte_reg (a : Word) (b : Byte) (r' : RegNum) : (s.putByte a b).reg r' = s.reg r' := rfl

/-! ## `State.putWord`: four bytes of memory -/

@[simp] theorem State.putWord_x (a v : Word) : (s.putWord a v).x = s.x := rfl
@[simp] theorem State.putWord_pc (a v : Word) : (s.putWord a v).pc = s.pc := rfl
@[simp] theorem State.putWord_hi (a v : Word) : (s.putWord a v).hi = s.hi := rfl
@[simp] theorem State.putWord_lo (a v : Word) : (s.putWord a v).lo = s.lo := rfl
@[simp] theorem State.putWord_halt (a v : Word) : (s.putWord a v).halt = s.halt := rfl
@[simp] theorem State.putWord_status (a v : Word) : (s.putWord a v).status = s.status := rfl
@[simp] theorem State.putWord_cin (a v : Word) : (s.putWord a v).cin = s.cin := rfl
@[simp] theorem State.putWord_cout (a v : Word) : (s.putWord a v).cout = s.cout := rfl
@[simp] theorem State.putWord_cerr (a v : Word) : (s.putWord a v).cerr = s.cerr := rfl
@[simp] theorem State.putWord_params (a v : Word) : (s.putWord a v).params = s.params := rfl
@[simp] theorem State.putWord_freeIndex (a v : Word) : (s.putWord a v).freeIndex = s.freeIndex := rfl
@[simp] theorem State.putWord_reg (a v : Word) (r' : RegNum) : (s.putWord a v).reg r' = s.reg r' := rfl

/-! ## `State.out`: COUT -/

@[simp] theorem State.out_x (bytes : List Byte) : (s.out bytes).x = s.x := rfl
@[simp] theorem State.out_pc (bytes : List Byte) : (s.out bytes).pc = s.pc := rfl
@[simp] theorem State.out_hi (bytes : List Byte) : (s.out bytes).hi = s.hi := rfl
@[simp] theorem State.out_lo (bytes : List Byte) : (s.out bytes).lo = s.lo := rfl
@[simp] theorem State.out_halt (bytes : List Byte) : (s.out bytes).halt = s.halt := rfl
@[simp] theorem State.out_status (bytes : List Byte) : (s.out bytes).status = s.status := rfl
@[simp] theorem State.out_mem (bytes : List Byte) : (s.out bytes).mem = s.mem := rfl
@[simp] theorem State.out_cin (bytes : List Byte) : (s.out bytes).cin = s.cin := rfl
@[simp] theorem State.out_cout (bytes : List Byte) : (s.out bytes).cout = s.cout ++ bytes := rfl
@[simp] theorem State.out_cerr (bytes : List Byte) : (s.out bytes).cerr = s.cerr := rfl
@[simp] theorem State.out_params (bytes : List Byte) : (s.out bytes).params = s.params := rfl
@[simp] theorem State.out_freeIndex (bytes : List Byte) : (s.out bytes).freeIndex = s.freeIndex := rfl
@[simp] theorem State.out_reg (bytes : List Byte) (r' : RegNum) : (s.out bytes).reg r' = s.reg r' := rfl

/-! ## `State.err`: CERR -/

@[simp] theorem State.err_x (text : List Byte) : (s.err text).x = s.x := rfl
@[simp] theorem State.err_pc (text : List Byte) : (s.err text).pc = s.pc := rfl
@[simp] theorem State.err_hi (text : List Byte) : (s.err text).hi = s.hi := rfl
@[simp] theorem State.err_lo (text : List Byte) : (s.err text).lo = s.lo := rfl
@[simp] theorem State.err_halt (text : List Byte) : (s.err text).halt = s.halt := rfl
@[simp] theorem State.err_status (text : List Byte) : (s.err text).status = s.status := rfl
@[simp] theorem State.err_mem (text : List Byte) : (s.err text).mem = s.mem := rfl
@[simp] theorem State.err_cin (text : List Byte) : (s.err text).cin = s.cin := rfl
@[simp] theorem State.err_cout (text : List Byte) : (s.err text).cout = s.cout := rfl
@[simp] theorem State.err_cerr (text : List Byte) : (s.err text).cerr = s.cerr ++ text := rfl
@[simp] theorem State.err_params (text : List Byte) : (s.err text).params = s.params := rfl
@[simp] theorem State.err_freeIndex (text : List Byte) : (s.err text).freeIndex = s.freeIndex := rfl
@[simp] theorem State.err_reg (text : List Byte) (r' : RegNum) : (s.err text).reg r' = s.reg r' := rfl

/-! ## `State.raise`: a fault -/

@[simp] theorem State.raise_x (kind : FaultKind) (info : Word) : (s.raise kind info).x = s.x := rfl
@[simp] theorem State.raise_pc (kind : FaultKind) (info : Word) : (s.raise kind info).pc = s.pc := rfl
@[simp] theorem State.raise_hi (kind : FaultKind) (info : Word) : (s.raise kind info).hi = s.hi := rfl
@[simp] theorem State.raise_lo (kind : FaultKind) (info : Word) : (s.raise kind info).lo = s.lo := rfl
@[simp] theorem State.raise_halt (kind : FaultKind) (info : Word) : (s.raise kind info).halt = s.halt := rfl
@[simp] theorem State.raise_status (kind : FaultKind) (info : Word) : (s.raise kind info).status = .faulted kind info := rfl
@[simp] theorem State.raise_mem (kind : FaultKind) (info : Word) : (s.raise kind info).mem = s.mem := rfl
@[simp] theorem State.raise_cin (kind : FaultKind) (info : Word) : (s.raise kind info).cin = s.cin := rfl
@[simp] theorem State.raise_cout (kind : FaultKind) (info : Word) : (s.raise kind info).cout = s.cout := rfl
@[simp] theorem State.raise_cerr (kind : FaultKind) (info : Word) : (s.raise kind info).cerr = s.cerr ++ s.diagnostic kind info := rfl
@[simp] theorem State.raise_params (kind : FaultKind) (info : Word) : (s.raise kind info).params = s.params := rfl
@[simp] theorem State.raise_freeIndex (kind : FaultKind) (info : Word) : (s.raise kind info).freeIndex = s.freeIndex + 1 := rfl
@[simp] theorem State.raise_reg (kind : FaultKind) (info : Word) (r' : RegNum) : (s.raise kind info).reg r' = s.reg r' := rfl

/-! ## Register read after register write (10_state.md R15, R17) -/

theorem State.reg_setReg (r r' : RegNum) (v : Word) : (s.setReg r v).reg r' = if r' = r then v else s.reg r' := by
  simp only [State.reg, State.setReg, Vector.get_eq_getElem, Vector.getElem_set, Fin.ext_iff, eq_comm]

@[simp] theorem State.reg_setReg_self (r : RegNum) (v : Word) : (s.setReg r v).reg r = v := by
  simp [State.reg_setReg]

theorem State.reg_setReg_of_ne {r r' : RegNum} (h : r' ≠ r) (v : Word) : (s.setReg r v).reg r' = s.reg r' := by
  simp [State.reg_setReg, h]

theorem State.reg_finish (r r' : RegNum) (v : Word) : (s.finish r v).reg r' = if r' = r then v else s.reg r' :=
  s.reg_setReg r r' v

@[simp] theorem State.reg_finish_self (r : RegNum) (v : Word) : (s.finish r v).reg r = v := s.reg_setReg_self r v

/-- The register file is its reads. -/
theorem State.x_eq_of_reg {s t : State} (h : ∀ r, t.reg r = s.reg r) : t.x = s.x := by
  apply Vector.ext
  intro i hi
  exact h ⟨i, hi⟩

end Sys2Proof.Machine
end

