-- ==== Sys2Proof/Laws/Operands.lean ====
section
/-! SUPPORT. The operand forms and the comparisons as numbers (30_encoding.md R57, 40_cycle.md R73, 00_scope.md R11). -/

namespace Sys2Proof.Machine

open Sys2Proof

theorem toInt_eq_signedOf (v : Word) : v.toInt = signedOf v := by
  unfold signedOf
  rw [BitVec.toInt_eq_toNat_cond]
  split <;> split <;> first | rfl | omega

theorem toNat_sext32 (imm : BitVec 16) : (sext32 imm).toNat = sextNat imm := by
  have := imm.isLt
  simp only [sext32, sextNat, BitVec.toNat_signExtend, BitVec.toNat_setWidth, BitVec.msb_eq_decide]
  by_cases h : imm.toNat < 2 ^ 15
  · rw [if_pos h]; simp [show ¬32768 ≤ imm.toNat by omega]; omega
  · rw [if_neg h]; simp [show 32768 ≤ imm.toNat by omega]; omega

theorem toInt_sext32 (imm : BitVec 16) : (sext32 imm).toInt = sextInt imm := by
  rw [toInt_eq_signedOf, signedOf, toNat_sext32, sextNat, sextInt]
  have := imm.isLt
  by_cases h : imm.toNat < 2 ^ 15
  · simp only [h, if_true]; split <;> omega
  · simp only [h, if_false]; split <;> omega

theorem toNat_zext32 (imm : BitVec 16) : (zext32 imm).toNat = imm.toNat := by
  have := imm.isLt
  simp only [zext32, BitVec.zeroExtend, BitVec.toNat_setWidth]
  omega

theorem toNat_upperHalf (imm : BitVec 16) : (upperHalf imm).toNat = imm.toNat * 2 ^ 16 := by
  have h : (upperHalf imm).toNat = (imm ++ 0#16).toNat := rfl
  rw [h, toNat_append_eq]
  simp

theorem toNat_branchTarget (p : Word) (imm : BitVec 16) :
    (branchTarget p imm).toNat = (p.toNat + 4 + sextNat imm * 4) % 2 ^ 32 := by
  simp only [branchTarget, branchOffset, BitVec.toNat_add, BitVec.toNat_shiftLeft, toNat_sext32, Nat.shiftLeft_eq,
    BitVec.toNat_ofNat]
  omega

/-- The mask 0xF0000000 keeps the top four bits. -/
theorem and_region_eq (q : Word) : q &&& 0xF0000000#32 = (q >>> 28) <<< 28 := by
  ext i hi
  simp only [BitVec.getElem_and, BitVec.getElem_shiftLeft, BitVec.getElem_ushiftRight]
  have hd : (0xF0000000#32)[i] = decide (28 ≤ i) := by revert i; decide
  rw [hd]
  by_cases h : i < 28
  · simp [h, show ¬28 ≤ i by omega]
  · simp only [h, show 28 ≤ i by omega, decide_true, Bool.and_true, decide_false, Bool.not_false, Bool.true_and]
    rw [BitVec.getLsbD_eq_getElem (by omega)]
    simp [show 28 + (i - 28) = i by omega]

theorem toNat_jumpTarget (p : Word) (target : BitVec 26) :
    (jumpTarget p target).toNat = (p.toNat + 4) % 2 ^ 32 / 2 ^ 28 * 2 ^ 28 + target.toNat * 4 := by
  have ht := target.isLt
  unfold jumpTarget
  generalize hq : p + 4#32 = q
  have hq' : (p.toNat + 4) % 2 ^ 32 = q.toNat := by rw [← hq]; simp
  rw [hq', and_region_eq]
  have hql := q.isLt
  rw [BitVec.toNat_or, BitVec.toNat_shiftLeft, BitVec.toNat_shiftLeft, BitVec.toNat_ushiftRight]
  simp only [Nat.shiftLeft_eq, Nat.shiftRight_eq_div_pow, BitVec.zeroExtend, BitVec.toNat_setWidth]
  have a1 : q.toNat / 2 ^ 28 * 2 ^ 28 % 2 ^ 32 = 2 ^ 28 * (q.toNat / 2 ^ 28) := by omega
  have a2 : target.toNat % 2 ^ 32 * 2 ^ 2 % 2 ^ 32 = target.toNat * 4 := by omega
  rw [a1, a2, ← Nat.two_pow_add_eq_or_of_lt (by omega)]
  omega

theorem toNat_effectiveAddress (s : State) (rs : RegNum) (imm : BitVec 16) :
    (s.effectiveAddress rs imm).toNat = ((s.reg rs).toNat + sextNat imm) % 2 ^ 32 := by
  simp only [State.effectiveAddress, BitVec.toNat_add, toNat_sext32]

theorem toNat_truthWord (c : Prop) [Decidable c] : (truthWord (decide c)).toNat = if c then 1 else 0 := by
  unfold truthWord
  by_cases h : c <;> simp [h]

end Sys2Proof.Machine
end

