-- ==== Sys2Proof/Laws/Memory.lean ====
section
/-! SUPPORT. The laws of memory: read after write, a write leaves every other address alone, and every operation keeps
the canonical form (20_memory.md R34 to R41). -/

namespace Sys2Proof.Machine

open Sys2Proof

/-! ## The store of bytes -/

theorem Memory.lookup_store (m : Memory) (a c : Nat) (b : Byte) :
    Memory.lookup (Memory.store m a b) c = if c = a then some b else Memory.lookup m c := by
  induction m with
  | nil => simp [Memory.store, Memory.lookup, eq_comm]
  | cons p rest ih =>
    obtain ⟨k, d⟩ := p
    by_cases h1 : a < k
    · simp [Memory.store, Memory.lookup, h1, eq_comm]
    · by_cases h2 : a = k
      · subst h2
        by_cases h3 : c = a
        · simp [Memory.store, Memory.lookup, h3]
        · simp [Memory.store, Memory.lookup, h3, Ne.symm h3]
      · by_cases h3 : k = c
        · subst h3
          simp [Memory.store, Memory.lookup, h1, h2, Ne.symm h2]
        · simp [Memory.store, Memory.lookup, h1, h2, h3, ih]

theorem Memory.mem_store {m : Memory} {a : Nat} {b : Byte} {p : Host.Cell} (h : p ∈ Memory.store m a b) :
    p = (a, b) ∨ p ∈ m := by
  induction m with
  | nil => simpa [Memory.store] using h
  | cons q rest ih =>
    obtain ⟨k, d⟩ := q
    simp only [Memory.store] at h
    split at h
    · simpa using h
    · split at h
      · simp only [List.mem_cons] at h ⊢; tauto
      · simp only [List.mem_cons] at h ⊢
        rcases h with h | h
        · exact .inr (.inl h)
        · rcases ih h with h | h
          · exact .inl h
          · exact .inr (.inr h)

theorem Memory.store_wf {m : Memory} {a : Nat} {b : Byte} (h : Memory.wf m) (ha : a < 2 ^ 32) :
    Memory.wf (Memory.store m a b) := by
  refine ⟨?_, fun p hp => ?_⟩
  · have hm := h.1
    clear h
    induction m with
    | nil => simp [Memory.store]
    | cons q rest ih =>
      obtain ⟨k, d⟩ := q
      have hr := List.pairwise_cons.1 hm
      simp only [Memory.store]
      split
      · rename_i hlt
        refine List.pairwise_cons.2 ⟨fun p hp => ?_, hm⟩
        rcases List.mem_cons.1 hp with rfl | hp
        · exact hlt
        · exact lt_trans hlt (hr.1 p hp)
      · split
        · rename_i heq
          subst heq
          exact List.pairwise_cons.2 ⟨hr.1, hr.2⟩
        · refine List.pairwise_cons.2 ⟨fun p hp => ?_, ih hr.2⟩
          rcases Memory.mem_store hp with rfl | hp
          · simp only; omega
          · exact hr.1 p hp
  · rcases Memory.mem_store hp with rfl | hp
    · exact ha
    · exact h.2 p hp

/-! ## The bytes of a word (20_memory.md R34) -/

theorem toNat_byteOfWord (v : Word) (k : Nat) : (byteOfWord v k).toNat = v.toNat / 2 ^ (8 * k) % 2 ^ 8 := by
  simp [byteOfWord, BitVec.extractLsb'_toNat, Nat.shiftRight_eq_div_pow]

theorem toNat_wordOfBytes (b0 b1 b2 b3 : Byte) :
    (wordOfBytes b0 b1 b2 b3).toNat = b0.toNat + b1.toNat * 2 ^ 8 + b2.toNat * 2 ^ 16 + b3.toNat * 2 ^ 24 := by
  have h : (wordOfBytes b0 b1 b2 b3).toNat = (b3 ++ b2 ++ b1 ++ b0).toNat := rfl
  rw [h, toNat_append_eq, toNat_append_eq, toNat_append_eq]
  omega

/-- Reading back the four bytes of a word gives the word (R41). -/
theorem wordOfBytes_byteOfWord (v : Word) :
    wordOfBytes (byteOfWord v 0) (byteOfWord v 1) (byteOfWord v 2) (byteOfWord v 3) = v := by
  apply BitVec.eq_of_toNat_eq
  rw [toNat_wordOfBytes]
  simp only [toNat_byteOfWord]
  have := v.isLt
  omega

/-! ## The port: validity does not depend on the contents -/

theorem byteValid_congr {s t : State} (h : t.params = s.params) (a : Word) : t.byteValid a = s.byteValid a := by
  simp [State.byteValid, h]

theorem wordValid_congr {s t : State} (h : t.params = s.params) (a : Word) : t.wordValid a = s.wordValid a := by
  simp [State.wordValid, byteValid_congr h]

theorem wordValid_iff (s : State) (a : Word) :
    s.wordValid a = true ↔ a.toNat % 4 = 0 ∧ s.byteValid a = true ∧ s.byteValid (a + 1#32) = true ∧
      s.byteValid (a + 2#32) = true ∧ s.byteValid (a + 3#32) = true := by
  simp [State.wordValid, and_assoc]

/-- A byte read depends on the parameters and the memory alone. -/
theorem memRead1_congr {s t : State} (hp : t.params = s.params) (hm : t.mem = s.mem) (a : Word) :
    t.memRead1 a = s.memRead1 a := by
  simp [State.memRead1, State.byteAt, byteValid_congr hp, hm]

theorem memRead4_congr {s t : State} (hp : t.params = s.params) (hm : t.mem = s.mem) (a : Word) :
    t.memRead4 a = s.memRead4 a := by
  simp [State.memRead4, State.byteAt, wordValid_congr hp, hm]

theorem memRead1_eq_none (s : State) (a : Word) : s.memRead1 a = none ↔ s.byteValid a = false := by
  cases h : s.byteValid a <;> simp [State.memRead1, h]

theorem memRead1_eq_some (s : State) (a : Word) (b : Byte) :
    s.memRead1 a = some b ↔ s.byteValid a = true ∧ s.byteAt a = b := by
  cases h : s.byteValid a <;> simp [State.memRead1, h]

/-- A word access is invalid when the address is misaligned or one of the four bytes is not in MEM_VALID. -/
theorem wordValid_eq_false_iff (s : State) (a : Word) :
    s.wordValid a = false ↔ (a.toNat % 4 ≠ 0 ∨ ∃ k < 4, s.memRead1 (a + BitVec.ofNat 32 k) = none) := by
  rw [← not_iff_not, Bool.not_eq_false, wordValid_iff]
  simp only [memRead1_eq_none]
  constructor
  · rintro ⟨h, h0, h1, h2, h3⟩ (hc | ⟨k, hk, hc⟩)
    · exact hc h
    · have : k = 0 ∨ k = 1 ∨ k = 2 ∨ k = 3 := by omega
      rcases this with rfl | rfl | rfl | rfl <;> simp_all
  · intro h
    have e : ∀ k < 4, s.byteValid (a + BitVec.ofNat 32 k) = true := fun k hk => by
      by_contra hc
      exact h (.inr ⟨k, hk, by simpa using hc⟩)
    refine ⟨by by_contra hc; exact h (.inl hc), ?_, ?_, ?_, ?_⟩
    · simpa using e 0 (by omega)
    · simpa using e 1 (by omega)
    · simpa using e 2 (by omega)
    · simpa using e 3 (by omega)

/-! ## The port: read after write -/

theorem byteAt_putByte (s : State) (a c : Word) (b : Byte) :
    (s.putByte a b).byteAt c = if c = a then b else s.byteAt c := by
  by_cases h : c = a
  · simp [State.byteAt, Memory.lookup_store, h]
  · have : ¬c.toNat = a.toNat := fun e => h (BitVec.eq_of_toNat_eq e)
    simp [State.byteAt, Memory.lookup_store, h, this]

/-- The bytes after a word is put at `a`: byte `k` of it at `a + k`, everything else as before. -/
theorem byteAt_putWord (s : State) (a v c : Word) :
    (s.putWord a v).byteAt c =
      if c = a + 3#32 then byteOfWord v 3 else if c = a + 2#32 then byteOfWord v 2
      else if c = a + 1#32 then byteOfWord v 1 else if c = a then byteOfWord v 0 else s.byteAt c := by
  simp [State.putWord, byteAt_putByte]

theorem byteAt_putWord_self (s : State) (a v : Word) {k : Nat} (hk : k < 4) :
    (s.putWord a v).byteAt (a + BitVec.ofNat 32 k) = byteOfWord v k := by
  have ne {i j : Word} (h : i ≠ j) : a + i ≠ a + j := fun e => h (by simpa using e)
  rw [byteAt_putWord]
  have : k = 0 ∨ k = 1 ∨ k = 2 ∨ k = 3 := by omega
  rcases this with rfl | rfl | rfl | rfl <;> simp

theorem byteAt_putWord_other (s : State) (a v c : Word) (h : ∀ k < 4, c ≠ a + BitVec.ofNat 32 k) :
    (s.putWord a v).byteAt c = s.byteAt c := by
  have h0 := h 0 (by omega)
  have h1 := h 1 (by omega)
  have h2 := h 2 (by omega)
  have h3 := h 3 (by omega)
  simp only [BitVec.add_zero] at h0 h1 h2 h3
  simp [byteAt_putWord, h0, h1, h2, h3]

/-- Everything a word write does (R34, R37): the address was valid, and the new state is the old one with the word
put there. -/
theorem memWrite4_eq_some {s t : State} {a v : Word} (h : s.memWrite4 a v = some t) :
    s.wordValid a = true ∧ t = s.putWord a v := by
  simp only [State.memWrite4] at h
  split at h
  · exact ⟨‹_›, by simpa using h.symm⟩
  · simp at h

theorem memWrite4_eq_none (s : State) (a v : Word) : s.memWrite4 a v = none ↔ s.wordValid a = false := by
  cases h : s.wordValid a <;> simp [State.memWrite4, h]

theorem memRead4_eq_none (s : State) (a : Word) : s.memRead4 a = none ↔ s.wordValid a = false := by
  cases h : s.wordValid a <;> simp [State.memRead4, h]

theorem memRead4_of_valid {s : State} {a : Word} (h : s.wordValid a = true) :
    s.memRead4 a = some (wordOfBytes (s.byteAt a) (s.byteAt (a + 1#32)) (s.byteAt (a + 2#32)) (s.byteAt (a + 3#32))) := by
  simp [State.memRead4, h]

/-- Store and load round trip at one address (R41). -/
theorem memRead4_putWord_self {s : State} {a : Word} (h : s.wordValid a = true) (v : Word) :
    (s.putWord a v).memRead4 a = some v := by
  rw [memRead4_of_valid (by simpa [wordValid_congr (s := s) (t := s.putWord a v) rfl] using h)]
  have e0 := byteAt_putWord_self s a v (k := 0) (by omega)
  have e1 := byteAt_putWord_self s a v (k := 1) (by omega)
  have e2 := byteAt_putWord_self s a v (k := 2) (by omega)
  have e3 := byteAt_putWord_self s a v (k := 3) (by omega)
  simp only [BitVec.add_zero] at e0 e1 e2 e3
  rw [e0, e1, e2, e3, wordOfBytes_byteOfWord]

/-- A word write leaves every other aligned word alone. -/
theorem memRead4_putWord_other {s : State} {a c : Word} (ha : a.toNat % 4 = 0) (hc : c.toNat % 4 = 0) (h : c ≠ a)
    (v : Word) : (s.putWord a v).memRead4 c = s.memRead4 c := by
  have ne : ∀ j < 4, (s.putWord a v).byteAt (c + BitVec.ofNat 32 j) = s.byteAt (c + BitVec.ofNat 32 j) := by
    intro j hj
    apply byteAt_putWord_other
    intro k hk e
    apply h
    apply BitVec.eq_of_toNat_eq
    have e' := congrArg BitVec.toNat e
    simp only [BitVec.toNat_add, BitVec.toNat_ofNat] at e'
    have := a.isLt
    have := c.isLt
    omega
  have e0 := ne 0 (by omega)
  have e1 := ne 1 (by omega)
  have e2 := ne 2 (by omega)
  have e3 := ne 3 (by omega)
  simp only [BitVec.add_zero] at e0 e1 e2 e3
  simp only [State.memRead4, wordValid_congr (s := s) (t := s.putWord a v) rfl, e0, e1, e2, e3]

/-! ## Every memory operation keeps the canonical form -/

theorem putByte_wf {s : State} (h : Memory.wf s.mem) (a : Word) (b : Byte) : Memory.wf (s.putByte a b).mem :=
  Memory.store_wf h a.isLt

theorem putWord_wf {s : State} (h : Memory.wf s.mem) (a v : Word) : Memory.wf (s.putWord a v).mem :=
  putByte_wf (putByte_wf (putByte_wf (putByte_wf h _ _) _ _) _ _) _ _

theorem memWrite4_wf {s t : State} {a v : Word} (h : Memory.wf s.mem) (hw : s.memWrite4 a v = some t) :
    Memory.wf t.mem := by
  rw [(memWrite4_eq_some hw).2]
  exact putWord_wf h a v

theorem reset_wf : Memory.wf State.reset.mem := by decide

/-- A byte put at a valid address keeps the list inside MEM_VALID. -/
theorem putByte_backed {s : State} (h : s.MemoryBacked) {a : Word} (ha : s.byteValid a = true) (b : Byte) :
    (s.putByte a b).MemoryBacked := by
  intro p hp
  rcases Memory.mem_store hp with rfl | hp
  · simpa [State.byteValid] using ha
  · exact h p hp

theorem putWord_backed {s : State} (h : s.MemoryBacked) {a : Word} (ha : s.wordValid a = true) (v : Word) :
    (s.putWord a v).MemoryBacked := by
  obtain ⟨-, h0, h1, h2, h3⟩ := (wordValid_iff s a).1 ha
  exact putByte_backed (putByte_backed (putByte_backed (putByte_backed h h0 _) h1 _) h2 _) h3 _

end Sys2Proof.Machine
end

