-- ==== Sys2Proof/Laws/Exec.lean ====
section
/-! SUPPORT. What each shared operation and each instruction can do, said once: the loop of print_string, the Console
Integer Parser, and the shapes of the next state of `exec`. -/

namespace Sys2Proof.Machine

open Sys2Proof

/-! ## The loop of print_string (44_syscall.md R106) -/

theorem add_ofNat_succ (a : Word) (n : Nat) : a + BitVec.ofNat 32 (n + 1) = a + 1#32 + BitVec.ofNat 32 n := by
  rw [BitVec.add_assoc]
  congr 1
  apply BitVec.eq_of_toNat_eq
  simp [Nat.add_comm]

/-- Everything the loop can answer within `n` bytes. -/
theorem scanFrom_cases (s : State) (n : Nat) (a : Word) :
    (∃ str, s.scanFrom n a = .terminated str ∧ str.length < n ∧ StringAt s a str ∧
      s.memRead1 (a + BitVec.ofNat 32 str.length) = some 0x00#8) ∨
    (∃ str, s.scanFrom n a = .unbacked str (a + BitVec.ofNat 32 str.length) ∧ str.length < n ∧ StringAt s a str ∧
      s.memRead1 (a + BitVec.ofNat 32 str.length) = none) ∨
    (s.scanFrom n a = .endless ∧ ∀ k < n, ∃ b, s.memRead1 (a + BitVec.ofNat 32 k) = some b ∧ b ≠ 0x00#8) := by
  induction n generalizing a with
  | zero => exact .inr (.inr ⟨rfl, by simp⟩)
  | succ n ih =>
    simp only [State.scanFrom]
    cases h : s.memRead1 a with
    | none => exact .inr (.inl ⟨[], by simp [StringAt, h]⟩)
    | some b =>
      by_cases hb : b = 0x00#8
      · subst hb
        exact .inl ⟨[], by simp [StringAt, h]⟩
      · simp only [hb, if_false]
        have cons {str : List Byte} (hs : StringAt s (a + 1#32) str) : StringAt s a (b :: str) := by
          intro k hk
          cases k with
          | zero => simpa using ⟨h, hb⟩
          | succ k => rw [add_ofNat_succ]; simpa using hs k (by simpa using hk)
        rcases ih (a + 1#32) with ⟨str, e, hl, hs, hz⟩ | ⟨str, e, hl, hs, hz⟩ | ⟨e, hs⟩
        · refine .inl ⟨b :: str, by simp [e, StringScan.cons], by simpa using hl, cons hs, ?_⟩
          rw [List.length_cons, add_ofNat_succ, hz]
        · refine .inr (.inl ⟨b :: str, ?_, by simpa using hl, cons hs, ?_⟩)
          · rw [e, List.length_cons, add_ofNat_succ a str.length]; rfl
          · rw [List.length_cons, add_ofNat_succ, hz]
        · refine .inr (.inr ⟨by simp [e, StringScan.cons], fun k hk => ?_⟩)
          cases k with
          | zero => exact ⟨b, by simpa using h, hb⟩
          | succ k => rw [add_ofNat_succ]; exact hs k (by omega)

/-- Everything the whole loop can answer. -/
theorem scanString_cases (s : State) (a : Word) :
    (∃ str, s.scanString a = .terminated str ∧ StringAt s a str ∧
      s.memRead1 (a + BitVec.ofNat 32 str.length) = some 0x00#8) ∨
    (∃ str, s.scanString a = .unbacked str (a + BitVec.ofNat 32 str.length) ∧ StringAt s a str ∧
      s.memRead1 (a + BitVec.ofNat 32 str.length) = none) ∨
    (s.scanString a = .endless ∧ ∀ c, ∃ b, s.memRead1 c = some b ∧ b ≠ 0x00#8) := by
  rcases scanFrom_cases s addressCount a with ⟨str, e, -, h⟩ | ⟨str, e, -, h⟩ | ⟨e, h⟩
  · exact .inl ⟨str, e, h⟩
  · exact .inr (.inl ⟨str, e, h⟩)
  · refine .inr (.inr ⟨e, fun c => ?_⟩)
    have h' := h (c - a).toNat (c - a).isLt
    rwa [BitVec.ofNat_toNat, BitVec.setWidth_eq, BitVec.add_comm, BitVec.sub_add_cancel] at h'

/-! ## The Console Integer Parser (44_syscall.md R110, R113) -/

theorem flushLine_suffix {eof : Bool} {input left : List Byte} (h : flushLine eof input = some left) :
    left <:+ input := by
  induction input with
  | nil => cases eof <;> simp_all [flushLine]
  | cons c tl ih =>
    simp only [flushLine] at h
    split at h
    · cases h; exact List.suffix_cons c _
    · exact (ih h).trans (List.suffix_cons c _)

theorem readDigits_suffix {eof : Bool} {acc v : Word} {input left : List Byte}
    (h : readDigits eof acc input = some (v, left)) : left <:+ input := by
  induction input generalizing acc with
  | nil => cases eof <;> simp_all [readDigits]
  | cons c rest ih =>
    simp only [readDigits] at h
    split at h
    · exact (ih h).trans (List.suffix_cons c rest)
    · simp only [Option.some.injEq, Prod.mk.injEq] at h; rw [← h.2]

/-- The parser only consumes from the front of the input. -/
theorem readInt_suffix {eof : Bool} {input left : List Byte} {v : Word} (h : readInt eof input = some (v, left)) :
    left <:+ input := by
  unfold readInt at h
  split at h
  · cases h
  · split at h
    · cases h
    · rename_i hd _ _ hf
      cases h
      exact (flushLine_suffix hf).trans (readDigits_suffix hd)

/-! ## Loads and stores, by the validity of the address (43_load_store.md R98) -/

theorem execLw_read {rt rs : RegNum} {imm : BitVec 16} {s : State} {a v : Word} (ha : s.effectiveAddress rs imm = a)
    (h : s.memRead4 a = some v) : execLw rt rs imm s = .next (s.finish rt v) := by
  subst ha
  simp only [execLw, h]

theorem execLw_valid {rt rs : RegNum} {imm : BitVec 16} {s : State} {a : Word} (ha : s.effectiveAddress rs imm = a)
    (h : s.wordValid a = true) :
    execLw rt rs imm s =
      .next (s.finish rt (wordOfBytes (s.byteAt a) (s.byteAt (a + 1#32)) (s.byteAt (a + 2#32)) (s.byteAt (a + 3#32)))) := by
  subst ha
  simp only [execLw, memRead4_of_valid h]

theorem execLw_invalid {rt rs : RegNum} {imm : BitVec 16} {s : State} {a : Word} (ha : s.effectiveAddress rs imm = a)
    (h : s.wordValid a = false) : execLw rt rs imm s = .next (s.raise .addressError a) := by
  subst ha
  simp only [execLw, (memRead4_eq_none _ _).2 h]

theorem execSw_valid {rt rs : RegNum} {imm : BitVec 16} {s : State} {a : Word} (ha : s.effectiveAddress rs imm = a)
    (h : s.wordValid a = true) : execSw rt rs imm s = .next (s.putWord a (s.reg rt)).advance := by
  subst ha
  simp only [execSw, State.memWrite4, h, if_true]

theorem execSw_invalid {rt rs : RegNum} {imm : BitVec 16} {s : State} {a : Word} (ha : s.effectiveAddress rs imm = a)
    (h : s.wordValid a = false) : execSw rt rs imm s = .next (s.raise .addressError a) := by
  subst ha
  simp only [execSw, (memWrite4_eq_none _ _ _).2 h]

/-! ## Every next state of an instruction -/

/-- The shapes of the next state of `i` in `s`, with what leads to each. -/
inductive Effect (i : Instr) (s : State) : State → Prop
  /-- A register result: `d` is the destination. -/
  | register (d : RegNum) (v p : Word) (h : d ∈ destRegs i s) (hp : i ≠ .syscall) : Effect i s ((s.setReg d v).setPc p)
  /-- Nothing but the PC. -/
  | pcOnly (p : Word) (h : destRegs i s = []) (hp : i ≠ .syscall) : Effect i s (s.setPc p)
  /-- A store. -/
  | store (rt rs : RegNum) (imm : BitVec 16) (hi : i = .sw rt rs imm)
      (h : s.wordValid (s.effectiveAddress rs imm) = true) :
      Effect i s ((s.putWord (s.effectiveAddress rs imm) (s.reg rt)).advance)
  /-- Services 1, 4 and 11. -/
  | output (bytes : List Byte) (hi : i = .syscall)
      (h : (s.reg .v0).toNat = 1 ∨ (s.reg .v0).toNat = 4 ∨ (s.reg .v0).toNat = 11) : Effect i s (s.out bytes).advance
  /-- Service 5. -/
  | input (v : Word) (rest : List Byte) (hi : i = .syscall) (h : (s.reg .v0).toNat = 5)
      (hr : readInt s.params.inEof s.cin = some (v, rest)) : Effect i s ({ s with cin := rest }.finish .v0 v)
  /-- Service 10. -/
  | exit (hi : i = .syscall) (h : (s.reg .v0).toNat = 10) : Effect i s { s with halt := true }.advance
  /-- A load or store at an invalid address. -/
  | badAddress (rt rs : RegNum) (imm : BitVec 16) (hi : i = .lw rt rs imm ∨ i = .sw rt rs imm)
      (h : s.wordValid (s.effectiveAddress rs imm) = false) :
      Effect i s (s.raise .addressError (s.effectiveAddress rs imm))
  /-- Service 4 at an unbacked byte. -/
  | badByte (str : List Byte) (hi : i = .syscall) (h : (s.reg .v0).toNat = 4) (hs : StringAt s (s.reg .a0) str)
      (hn : s.memRead1 (s.reg .a0 + BitVec.ofNat 32 str.length) = none) :
      Effect i s ((s.out str).raise .addressError (s.reg .a0 + BitVec.ofNat 32 str.length))
  /-- An unknown selector. -/
  | badSelector (hi : i = .syscall) (h : (s.reg .v0).toNat ∉ serviceCodes) :
      Effect i s (s.raise .unknownSyscall (s.reg .v0))

theorem execSyscall_effect {s t : State} (h : execSyscall s = .next t) : Effect .syscall s t := by
  unfold execSyscall at h
  split at h
  · cases h; exact .output _ rfl (.inl ‹_›)
  · rename_i hv
    unfold servicePrintString at h
    rcases scanString_cases s (s.reg .a0) with ⟨str, e, -⟩ | ⟨str, e, hs, hn⟩ | ⟨e, -⟩ <;> rw [e] at h <;> cases h
    · exact .output str rfl (.inr (.inl hv))
    · exact .badByte str rfl hv hs hn
  · rename_i hv
    unfold serviceReadInt at h
    split at h
    · rename_i v rest hr
      cases h
      exact .input v rest rfl hv hr
    · cases h
  · cases h; exact .exit rfl ‹_›
  · cases h; exact .output _ rfl (.inr (.inr ‹_›))
  · cases h
    refine .badSelector rfl ?_
    simp only [serviceCodes, List.mem_cons, List.not_mem_nil, or_false, not_or]
    refine ⟨?_, ?_, ?_, ?_, ?_⟩ <;> assumption

/-- If an instruction has a next state, it is one of the shapes of `Effect`. -/
theorem exec_effect {i : Instr} {s t : State} (h : exec i s = .next t) : Effect i s t := by
  cases i with
  | syscall => exact execSyscall_effect h
  | lw rt rs imm =>
    simp only [exec, execLw] at h
    split at h
    · cases h; exact .register rt _ _ (by simp [destRegs]) (by simp)
    · rename_i hn
      cases h; exact .badAddress rt rs imm (.inl rfl) ((memRead4_eq_none _ _).1 hn)
  | sw rt rs imm =>
    simp only [exec, execSw] at h
    split at h
    · rename_i u hu
      obtain ⟨hv, rfl⟩ := memWrite4_eq_some hu
      cases h; exact .store rt rs imm rfl hv
    · rename_i hn
      cases h; exact .badAddress rt rs imm (.inr rfl) ((memWrite4_eq_none _ _ _).1 hn)
  | slti rt rs imm =>
    simp only [exec, execSlti] at h
    split at h <;> cases h
    · exact .pcOnly _ (by simp [destRegs, *]) (by simp)
    · exact .register rt _ _ (by simp [destRegs, *]) (by simp)
  | beq rs rt imm =>
    simp only [exec, execBeq, State.branch] at h
    split at h <;> cases h <;> exact .pcOnly _ rfl (by simp)
  | bne rs rt imm =>
    simp only [exec, execBne, State.branch] at h
    split at h <;> cases h <;> exact .pcOnly _ rfl (by simp)
  | jr rs => cases h; exact .pcOnly _ rfl (by simp)
  | j target => cases h; exact .pcOnly _ rfl (by simp)
  | jal target => cases h; exact .register .ra _ _ (by simp [destRegs]) (by simp)
  | sll rd rt shamt => cases h; exact .register rd _ _ (by simp [destRegs]) (by simp)
  | add rd rs rt => cases h; exact .register rd _ _ (by simp [destRegs]) (by simp)
  | addu rd rs rt => cases h; exact .register rd _ _ (by simp [destRegs]) (by simp)
  | sub rd rs rt => cases h; exact .register rd _ _ (by simp [destRegs]) (by simp)
  | or rd rs rt => cases h; exact .register rd _ _ (by simp [destRegs]) (by simp)
  | slt rd rs rt => cases h; exact .register rd _ _ (by simp [destRegs]) (by simp)
  | mul rd rs rt => cases h; exact .register rd _ _ (by simp [destRegs]) (by simp)
  | addi rt rs imm => cases h; exact .register rt _ _ (by simp [destRegs]) (by simp)
  | addiu rt rs imm => cases h; exact .register rt _ _ (by simp [destRegs]) (by simp)
  | ori rt rs imm => cases h; exact .register rt _ _ (by simp [destRegs]) (by simp)
  | lui rt imm => cases h; exact .register rt _ _ (by simp [destRegs]) (by simp)

end Sys2Proof.Machine
end

