-- ==== Sys2Proof/Laws/Step.lean ====
section
/-! SUPPORT. What a step can do, said once (40_cycle.md R68 to R76). -/

namespace Sys2Proof.Machine

open Sys2Proof

theorem step_of_fetch {s : State} {w : Word} (hr : s.status = .running) (hf : s.fetch = some w) :
    step s = checked (dispatch w s) := by
  simp [step, cycle, hr, hf]

theorem step_of_no_fetch {s : State} (hr : s.status = .running) (hf : s.fetch = none) :
    step s = .next (s.raise .fetchError s.pc) := by
  simp [step, cycle, hr, hf]

theorem step_of_ended {s : State} (h : s.status ≠ .running) : step s = .fault (.runEnded s.status) := by
  unfold step cycle
  split
  · contradiction
  · rfl
  · rfl

theorem checked_eq_next {r : Result} {t : State} (h : checked r = .next t) : ∃ u, r = .next u ∧ t = u.haltCheck := by
  cases r with
  | next u => exact ⟨u, rfl, by cases h; rfl⟩
  | fault f => cases h
  | refused f => cases h

/-- Everything a step with a next state can do: the fetch check fails, or the word at the PC runs and the halt check
follows. -/
theorem step_next_cases {s t : State} (h : step s = .next t) :
    s.status = .running ∧
    ((s.fetch = none ∧ t = s.raise .fetchError s.pc) ∨
      ∃ w u, s.fetch = some w ∧ t = u.haltCheck ∧
        ((∃ i, decode w = .instr i ∧ exec i s = .next u) ∨
         (decode w = .unmatchedFunction ∧ u = s.advance) ∨
         (decode w = .unimplementedOpcode ∧ u = s.raise .unimplementedOpcode w))) := by
  by_cases hr : s.status = .running
  · refine ⟨hr, ?_⟩
    cases hf : s.fetch with
    | none =>
      rw [step_of_no_fetch hr hf] at h
      cases h; exact .inl ⟨rfl, rfl⟩
    | some w =>
      rw [step_of_fetch hr hf] at h
      obtain ⟨u, hu, ht⟩ := checked_eq_next h
      refine .inr ⟨w, u, rfl, ht, ?_⟩
      unfold dispatch at hu
      split at hu
      · exact .inl ⟨_, ‹_›, hu⟩
      · cases hu; exact .inr (.inl ⟨‹_›, rfl⟩)
      · cases hu; exact .inr (.inr ⟨‹_›, rfl⟩)
  · rw [step_of_ended hr] at h; cases h

/-! ## The halt check touches the status and COUT alone -/

theorem haltCheck_cases (s : State) :
    (s.status = .running ∧ s.halt = true ∧ s.haltCheck = { s.out s.dump with status := .halted }) ∨
    (¬(s.status = .running ∧ s.halt = true) ∧ s.haltCheck = s) := by
  unfold State.haltCheck
  by_cases h : s.status = .running ∧ s.halt = true
  · exact .inl ⟨h.1, h.2, by simp [h]⟩
  · exact .inr ⟨h, by simp [h]⟩

@[simp] theorem haltCheck_reg (s : State) (r : RegNum) : s.haltCheck.reg r = s.reg r := by
  rcases haltCheck_cases s with ⟨-, -, h⟩ | ⟨-, h⟩ <;> simp [h, State.reg]
@[simp] theorem haltCheck_pc (s : State) : s.haltCheck.pc = s.pc := by
  rcases haltCheck_cases s with ⟨-, -, h⟩ | ⟨-, h⟩ <;> simp [h]
@[simp] theorem haltCheck_hi (s : State) : s.haltCheck.hi = s.hi := by
  rcases haltCheck_cases s with ⟨-, -, h⟩ | ⟨-, h⟩ <;> simp [h]
@[simp] theorem haltCheck_lo (s : State) : s.haltCheck.lo = s.lo := by
  rcases haltCheck_cases s with ⟨-, -, h⟩ | ⟨-, h⟩ <;> simp [h]
@[simp] theorem haltCheck_halt (s : State) : s.haltCheck.halt = s.halt := by
  rcases haltCheck_cases s with ⟨-, -, h⟩ | ⟨-, h⟩ <;> simp [h]
@[simp] theorem haltCheck_mem (s : State) : s.haltCheck.mem = s.mem := by
  rcases haltCheck_cases s with ⟨-, -, h⟩ | ⟨-, h⟩ <;> simp [h]
@[simp] theorem haltCheck_cin (s : State) : s.haltCheck.cin = s.cin := by
  rcases haltCheck_cases s with ⟨-, -, h⟩ | ⟨-, h⟩ <;> simp [h]
@[simp] theorem haltCheck_cerr (s : State) : s.haltCheck.cerr = s.cerr := by
  rcases haltCheck_cases s with ⟨-, -, h⟩ | ⟨-, h⟩ <;> simp [h]
@[simp] theorem haltCheck_params (s : State) : s.haltCheck.params = s.params := by
  rcases haltCheck_cases s with ⟨-, -, h⟩ | ⟨-, h⟩ <;> simp [h]
@[simp] theorem haltCheck_freeIndex (s : State) : s.haltCheck.freeIndex = s.freeIndex := by
  rcases haltCheck_cases s with ⟨-, -, h⟩ | ⟨-, h⟩ <;> simp [h]

@[simp] theorem haltCheck_memRead1 (s : State) (a : Word) : s.haltCheck.memRead1 a = s.memRead1 a :=
  memRead1_congr (haltCheck_params s) (haltCheck_mem s) a

end Sys2Proof.Machine
end

