-- ==== Sys2Proof/Laws/Frame.lean ====
section
/-! SUPPORT. What each shared update of the state leaves unchanged, in the terms of the claims, and how register writes
combine with each other and with the PC. -/

namespace Sys2Proof.Machine

open Sys2Proof

theorem setPc_onlyPc (s : State) (t : Word) : OnlyPc s (s.setPc t) :=
  ⟨fun _ => rfl, fun a => memRead1_congr rfl rfl a, ⟨rfl, rfl⟩, ⟨rfl, rfl⟩, ⟨rfl, rfl, rfl⟩, ⟨rfl, rfl⟩⟩

theorem advance_onlyPc (s : State) : OnlyPc s s.advance := setPc_onlyPc s _

theorem finish_onlyRegister (s : State) (d : RegNum) (v : Word) : OnlyRegister s (s.finish d v) d :=
  ⟨fun _ h => State.reg_setReg_of_ne _ h v, fun a => memRead1_congr rfl rfl a, ⟨rfl, rfl⟩, ⟨rfl, rfl⟩, ⟨rfl, rfl, rfl⟩,
    ⟨rfl, rfl⟩⟩

theorem out_onlyOutput (s : State) (bytes : List Byte) : OnlyOutput s (s.out bytes).advance bytes :=
  ⟨fun _ => rfl, fun a => memRead1_congr rfl rfl a, ⟨rfl, rfl⟩, ⟨rfl, rfl⟩, rfl, rfl, rfl, ⟨rfl, rfl⟩⟩

theorem out_nil (s : State) : s.out [] = s := by simp [State.out]

theorem raises_out (s : State) (kind : FaultKind) (info : Word) (bytes : List Byte) :
    Raises s ((s.out bytes).raise kind info) kind info bytes :=
  ⟨rfl, rfl, fun _ => rfl, fun a => memRead1_congr rfl rfl a, ⟨rfl, rfl⟩, rfl, rfl, rfl, rfl, List.prefix_append _ _, rfl⟩

theorem raises_raise (s : State) (kind : FaultKind) (info : Word) : Raises s (s.raise kind info) kind info [] := by
  have h := raises_out s kind info []
  rwa [out_nil] at h

theorem advances_advance (s : State) : Advances s s.advance := by simp [Advances]

/-- The halt check does nothing after a step that left the flag clear. -/
theorem haltCheck_of_clear {s : State} (h : s.halt = false) : s.haltCheck = s := by
  rcases haltCheck_cases s with ⟨-, h', -⟩ | ⟨-, e⟩
  · simp [h] at h'
  · exact e

/-- The halt check does nothing after a fault. -/
theorem haltCheck_raise (s : State) (kind : FaultKind) (info : Word) :
    (s.raise kind info).haltCheck = s.raise kind info := by
  rcases haltCheck_cases (s.raise kind info) with ⟨h, -, -⟩ | ⟨-, e⟩
  · cases h
  · exact e

/-! ## Register writes -/

theorem setReg_self (s : State) (r : RegNum) : s.setReg r (s.reg r) = s := by
  have h : (s.setReg r (s.reg r)).x = s.x := State.x_eq_of_reg fun k => by
    rw [State.reg_setReg]
    split
    · rename_i e; rw [e]
    · rfl
  have e : s.setReg r (s.reg r) = { s with x := (s.setReg r (s.reg r)).x } := rfl
  rw [e, h]

theorem setReg_same (s : State) (r : RegNum) (v u : Word) : (s.setReg r v).setReg r u = s.setReg r u := by
  have h : ((s.setReg r v).setReg r u).x = (s.setReg r u).x := State.x_eq_of_reg fun k => by
    simp only [State.reg_setReg]; split <;> rfl
  have e : (s.setReg r v).setReg r u = { s.setReg r u with x := ((s.setReg r v).setReg r u).x } := rfl
  rw [e, h]

theorem setReg_comm (s : State) {r d : RegNum} (v u : Word) (h : r ≠ d) :
    (s.setReg r v).setReg d u = (s.setReg d u).setReg r v := by
  have hx : ((s.setReg r v).setReg d u).x = ((s.setReg d u).setReg r v).x := State.x_eq_of_reg fun k => by
    simp only [State.reg_setReg]
    by_cases h1 : k = d
    · have h2 : k ≠ r := fun h2 => h (h2.symm.trans h1)
      rw [if_pos h1, if_neg h2, if_pos h1]
    · rw [if_neg h1, if_neg h1]
  have e : (s.setReg r v).setReg d u = { (s.setReg d u).setReg r v with x := ((s.setReg r v).setReg d u).x } := rfl
  rw [e, hx]

/-- A result written after another register was changed. -/
theorem finish_setReg (s : State) (r d : RegNum) (v u : Word) :
    (s.setReg r v).finish d u = if r = d then s.finish d u else (s.finish d u).setReg r v := by
  unfold State.finish
  split
  · rename_i h; subst h; rw [setReg_same]
  · rename_i h; rw [setReg_comm _ _ _ h]; rfl

/-- The loop of print_string reads memory and nothing else. -/
theorem scanFrom_congr {s t : State} (hp : t.params = s.params) (hm : t.mem = s.mem) (k : Nat) (a : Word) :
    t.scanFrom k a = s.scanFrom k a := by
  induction k generalizing a with
  | zero => rfl
  | succ k ih => simp only [State.scanFrom, memRead1_congr hp hm, ih]

theorem scanString_congr {s t : State} (hp : t.params = s.params) (hm : t.mem = s.mem) (a : Word) :
    t.scanString a = s.scanString a := by
  unfold State.scanString
  generalize addressCount = k
  exact scanFrom_congr hp hm k a

/-- A run of one more step. -/
theorem run_succ (M : Host.Core) {n : Nat} {s t : M.State} (h : M.run (n + 1) s = .next t) :
    ∃ u, M.step s = .next u ∧ M.run n u = .next t := by
  rw [Host.Core.run.eq_2] at h
  split at h
  · exact ⟨_, ‹_›, h⟩
  · cases h
  · cases h

end Sys2Proof.Machine
end

