-- ==== Sys2Proof/Laws/Console.lean ====
section
/-! SUPPORT. Console text as numbers and lines (44_syscall.md R105, R106, R110, R113), and the service that each
selector runs (R104, R112). -/

namespace Sys2Proof.Machine

open Sys2Proof

/-! ## The service of each selector -/

theorem exec_syscall_printInt {s : State} (h : (s.reg 2).toNat = 1) : exec .syscall s = servicePrintInt s := by
  show execSyscall s = _
  simp only [execSyscall, RegNum.v0, h]

theorem exec_syscall_printString {s : State} (h : (s.reg 2).toNat = 4) : exec .syscall s = servicePrintString s := by
  show execSyscall s = _
  simp only [execSyscall, RegNum.v0, h]

theorem exec_syscall_readInt {s : State} (h : (s.reg 2).toNat = 5) : exec .syscall s = serviceReadInt s := by
  show execSyscall s = _
  simp only [execSyscall, RegNum.v0, h]

theorem exec_syscall_exit {s : State} (h : (s.reg 2).toNat = 10) : exec .syscall s = serviceExit s := by
  show execSyscall s = _
  simp only [execSyscall, RegNum.v0, h]

theorem exec_syscall_printCharacter {s : State} (h : (s.reg 2).toNat = 11) :
    exec .syscall s = servicePrintCharacter s := by
  show execSyscall s = _
  simp only [execSyscall, RegNum.v0, h]

theorem exec_syscall_unknown {s : State} (h : (s.reg 2).toNat ∉ serviceCodes) :
    exec .syscall s = .next (s.raise .unknownSyscall (s.reg 2)) := by
  show execSyscall s = _
  simp only [serviceCodes, List.mem_cons, List.not_mem_nil, or_false, not_or] at h
  simp only [execSyscall, RegNum.v0]
  split <;> first | rfl | omega

/-! ## Decimal text (R105) -/

theorem toNat_digitByte (d : Nat) (h : d < 10) : (digitByte d).toNat = 0x30 + d := by
  simp [digitByte]; omega
theorem digitsValue_append (a : List Byte) (c : Byte) :
    digitsValue (a ++ [c]) = digitsValue a * 10 + (c.toNat - 0x30) := by
  simp [digitsValue]

theorem isDigit_digitByte {d : Nat} (h : d < 10) : IsDigit (digitByte d) := by
  simp only [IsDigit, toNat_digitByte _ h]
  omega

/-- One digit is the decimal text of a number below 10. -/
theorem digit_isDecimal {n : Nat} (h : n < 10) : IsDecimal n [digitByte (n % 10)] := by
  rw [Nat.mod_eq_of_lt h]
  exact ⟨by simp, by simpa using isDigit_digitByte h, by simp [digitsValue, toNat_digitByte n h],
    fun e => by simpa using e⟩

/-- Enough digits spell the number. -/
theorem decNat_isDecimal (k n : Nat) (h : n < 10 ^ (k + 1)) : IsDecimal n (decNat (k + 1) n) := by
  induction k generalizing n with
  | zero =>
    have h : n < 10 := by simpa using h
    simpa only [decNat, h, if_true, List.nil_append] using digit_isDecimal h
  | succ k ih =>
    rw [decNat]
    by_cases h10 : n < 10
    · simpa only [h10, if_true, List.nil_append] using digit_isDecimal h10
    · simp only [h10, if_false]
      have hn : n / 10 < 10 ^ (k + 1) := by
        rw [Nat.div_lt_iff_lt_mul (by omega), ← pow_succ]
        exact h
      obtain ⟨h1, h2, h3, h4⟩ := ih _ hn
      have hm : n % 10 < 10 := by omega
      refine ⟨by simp, fun c hc => ?_, ?_, fun hh => ?_⟩
      · rcases List.mem_append.1 hc with hc | hc
        · exact h2 c hc
        · rw [List.mem_singleton.1 hc]; exact isDigit_digitByte hm
      · rw [digitsValue_append, h3, toNat_digitByte _ hm]; omega
      · rw [List.head?_append_of_ne_nil _ h1] at hh
        rw [h4 hh] at h3
        simp [digitsValue] at h3
        omega

theorem natAbs_signedOf_lt (v : Word) : (signedOf v).natAbs < 10 ^ 10 := by
  have := v.isLt; unfold signedOf; split <;> omega

/-! ## The string of print_string (R106) -/

/-- A start address and a memory determine the string that ends at a terminator or at an unbacked byte. -/
theorem string_unique {s : State} {a : Word} {str str' : List Byte} (h : StringAt s a str) (h' : StringAt s a str')
    (hz : s.memRead1 (a + BitVec.ofNat 32 str.length) = some 0 ∨ s.memRead1 (a + BitVec.ofNat 32 str.length) = none)
    (hz' : s.memRead1 (a + BitVec.ofNat 32 str'.length) = some 0 ∨
      s.memRead1 (a + BitVec.ofNat 32 str'.length) = none) : str = str' := by
  have le {u u' : List Byte} (hu' : StringAt s a u')
      (hu : s.memRead1 (a + BitVec.ofNat 32 u.length) = some 0 ∨ s.memRead1 (a + BitVec.ofNat 32 u.length) = none) :
      u'.length ≤ u.length := by
    by_contra hlt
    obtain ⟨e, hne⟩ := hu' u.length (by omega)
    rw [e] at hu
    rcases hu with hu | hu
    · exact hne (by simpa using hu)
    · cases hu
  refine List.ext_getElem (Nat.le_antisymm (le h hz') (le h' hz)) fun k h1 h2 => ?_
  have e := (h k h1).1
  rw [(h' k h2).1] at e
  simpa using e.symm

/-! ## The Console Integer Parser (R110, R113) -/

theorem isDigit_eq (c : Byte) : isDigit c = decide (IsDigit c) := rfl

theorem toNat_accumulate (acc : Word) (c : Byte) :
    (accumulate acc c).toNat = (acc.toNat * 10 + (c.toNat - 0x30)) % 2 ^ 32 := by
  have := c.isLt
  simp only [accumulate, BitVec.toNat_add, BitVec.toNat_mul, BitVec.toNat_ofNat]
  omega

/-- Reducing the accumulator modulo 2^32 on the way does not change the value modulo 2^32. -/
theorem digits_foldl_mod (ds : List Byte) (n m : Nat) (h : n % 2 ^ 32 = m % 2 ^ 32) :
    ds.foldl (fun n c => n * 10 + (c.toNat - 0x30)) n % 2 ^ 32 =
      ds.foldl (fun n c => n * 10 + (c.toNat - 0x30)) m % 2 ^ 32 := by
  induction ds generalizing n m with
  | nil => exact h
  | cons c cs ih => exact ih (n * 10 + (c.toNat - 0x30)) (m * 10 + (c.toNat - 0x30)) (by omega)

/-- Reading digits from a line, followed by something that does not start with a digit, or by end-of-input. -/
theorem readDigits_eq {eof : Bool} {tail : List Byte} (ht : ∀ c ∈ tail.head?, isDigit c = false)
    (he : tail = [] → eof = true) (line : List Byte) (acc : Word) :
    ∃ v, readDigits eof acc (line ++ tail) = some (v, line.dropWhile (fun c => decide (IsDigit c)) ++ tail) ∧
      v.toNat = (digitPrefix line).foldl (fun n c => n * 10 + (c.toNat - 0x30)) acc.toNat % 2 ^ 32 := by
  induction line generalizing acc with
  | nil =>
    refine ⟨acc, ?_, (Nat.mod_eq_of_lt acc.isLt).symm⟩
    cases tail with
    | nil => simp [readDigits, he rfl]
    | cons c cs => simp [readDigits, ht c rfl]
  | cons c cs ih =>
    by_cases hc : IsDigit c
    · obtain ⟨v, h1, h2⟩ := ih (accumulate acc c)
      have hd := decide_eq_true hc
      refine ⟨v, by simp only [List.cons_append, readDigits, isDigit_eq, hd, if_true, List.dropWhile_cons, h1], ?_⟩
      rw [h2]
      simp only [digitPrefix, List.takeWhile_cons, hd, if_true, List.foldl_cons]
      exact digits_foldl_mod _ _ _ (by rw [toNat_accumulate]; simp)
    · have hd := decide_eq_false hc
      refine ⟨acc, by simp [readDigits, isDigit_eq, hc], ?_⟩
      have hp : digitPrefix (c :: cs) = [] := by simp only [digitPrefix, List.takeWhile_cons, hd]; rfl
      rw [hp]
      exact (Nat.mod_eq_of_lt acc.isLt).symm

/-- The flush stops behind the first newline. -/
theorem flushLine_line (eof : Bool) (line rest : List Byte) (h : 0x0A#8 ∉ line) :
    flushLine eof (line ++ 0x0A#8 :: rest) = some rest := by
  induction line with
  | nil => simp [flushLine]
  | cons c cs ih =>
    simp only [List.mem_cons, not_or] at h
    simp [flushLine, Ne.symm h.1, ih h.2]

/-- Without a newline the flush reaches end-of-input, or waits. -/
theorem flushLine_end (eof : Bool) (line : List Byte) (h : 0x0A#8 ∉ line) :
    flushLine eof line = if eof then some [] else none := by
  induction line with
  | nil => simp [flushLine]
  | cons c cs ih =>
    simp only [List.mem_cons, not_or] at h
    simp [flushLine, Ne.symm h.1, ih h.2]

theorem newline_not_mem_dropWhile {line : List Byte} (h : 0x0A#8 ∉ line) :
    0x0A#8 ∉ line.dropWhile fun c => decide (IsDigit c) := fun e => h ((List.dropWhile_suffix _).subset e)

theorem readInt_line (eof : Bool) (line rest : List Byte) (h : 0x0A#8 ∉ line) :
    ∃ v, readInt eof (line ++ 0x0A#8 :: rest) = some (v, rest) ∧
      v.toNat = digitsValue (digitPrefix line) % 2 ^ 32 := by
  obtain ⟨v, h1, h2⟩ := readDigits_eq (eof := eof) (tail := 0x0A#8 :: rest) (by simp [isDigit]) (by simp) line 0
  exact ⟨v, by simp only [readInt, h1, flushLine_line eof _ rest (newline_not_mem_dropWhile h)], h2⟩

theorem readInt_end (line : List Byte) (h : 0x0A#8 ∉ line) :
    ∃ v, readInt true line = some (v, []) ∧ v.toNat = digitsValue (digitPrefix line) % 2 ^ 32 := by
  obtain ⟨v, h1, h2⟩ := readDigits_eq (eof := true) (tail := []) (by simp) (fun _ => rfl) line 0
  rw [List.append_nil, List.append_nil] at h1
  exact ⟨v, by simp only [readInt, h1, flushLine_end true _ (newline_not_mem_dropWhile h), if_true], h2⟩

theorem readInt_wait (line : List Byte) (h : 0x0A#8 ∉ line) : readInt false line = none := by
  unfold readInt
  split
  · rfl
  · rename_i hd
    have hs := (readDigits_suffix hd).subset
    rw [flushLine_end false _ fun e => h (hs e)]
    rfl

theorem digitPrefix_of_digits (ds : List Byte) (h : ∀ c ∈ ds, IsDigit c) : digitPrefix ds = ds := by
  unfold digitPrefix
  rw [List.takeWhile_eq_self_iff]
  simpa using h

theorem serviceReadInt_of_some {s : State} {v : Word} {rest : List Byte}
    (h : readInt s.params.inEof s.cin = some (v, rest)) :
    serviceReadInt s = .next ({ s with cin := rest }.finish .v0 v) := by
  simp only [serviceReadInt, h]

theorem serviceReadInt_of_none {s : State} (h : readInt s.params.inEof s.cin = none) :
    serviceReadInt s = .fault .waitingForInput := by
  simp only [serviceReadInt, h]

end Sys2Proof.Machine
end

