-- ==== Sys2Proof/Laws/PerInstr.lean ====
section
/-! SUPPORT. Facts about each instruction as syntax, one lemma per constructor: its word has the bits of its row of the
opcode table (30_encoding.md R55, R56). -/

namespace Sys2Proof

/-- The mask of a row under opcode 0 or 0x1C keeps the opcode and the function code. -/
theorem encodeR_row (op fn : BitVec 6) (rs rt rd : RegNum) (sh : BitVec 5) :
    encodeR op rs rt rd sh fn &&& 0xFC00003F#32 = op ++ 0#20 ++ fn := by
  have m : 0xFC00003F#32 = encodeR 63#6 0 0 0 0#5 63#6 := by decide
  have z : ∀ r : RegNum, regOfField (fieldOfReg r &&& fieldOfReg 0) = 0 := by decide
  have a6 : ∀ v : BitVec 6, v &&& 63#6 = v := by decide
  rw [m, encodeR_and, z, z, z, a6, a6, BitVec.and_zero]
  revert op fn
  decide

/-- The mask of every other row keeps the opcode. -/
theorem encodeJ_row (op : BitVec 6) (target : BitVec 26) : encodeJ op target &&& 0xFC000000#32 = op ++ 0#26 := by
  have m : 0xFC000000#32 = 63#6 ++ 0#26 := by decide
  have a6 : ∀ v : BitVec 6, v &&& 63#6 = v := by decide
  rw [m, encodeJ, BitVec.and_append, a6, BitVec.and_zero]

theorem encodeI_row (op : BitVec 6) (rs rt : RegNum) (imm : BitVec 16) :
    encodeI op rs rt imm &&& 0xFC000000#32 = op ++ 0#26 := by
  have e : encodeI op rs rt imm = encodeJ op (fieldOfReg rs ++ fieldOfReg rt ++ imm) := by
    apply BitVec.eq_of_toNat_eq
    simp only [toNat_encodeI, toNat_encodeJ, toNat_append_eq, toNat_fieldOfReg]
    omega
  rw [e, encodeJ_row]

end Sys2Proof

namespace Sys2Proof.Laws.EncodingRow

open Sys2Proof

/-- The word of `i` has the pattern of its row under its mask. -/
def Statement (i : Instr) : Prop := encode i &&& i.row.mask = i.row.pattern

theorem sll (rd rt : RegNum) (shamt : Nat) : Statement (.sll rd rt shamt) := encodeR_row _ _ _ _ _ _
theorem jr (rs : RegNum) : Statement (.jr rs) := encodeR_row _ _ _ _ _ _
theorem syscall : Statement .syscall := encodeR_row _ _ _ _ _ _
theorem add (rd rs rt : RegNum) : Statement (.add rd rs rt) := encodeR_row _ _ _ _ _ _
theorem addu (rd rs rt : RegNum) : Statement (.addu rd rs rt) := encodeR_row _ _ _ _ _ _
theorem sub (rd rs rt : RegNum) : Statement (.sub rd rs rt) := encodeR_row _ _ _ _ _ _
theorem or (rd rs rt : RegNum) : Statement (.or rd rs rt) := encodeR_row _ _ _ _ _ _
theorem slt (rd rs rt : RegNum) : Statement (.slt rd rs rt) := encodeR_row _ _ _ _ _ _
theorem mul (rd rs rt : RegNum) : Statement (.mul rd rs rt) := encodeR_row _ _ _ _ _ _
theorem j (target : BitVec 26) : Statement (.j target) := encodeJ_row _ _
theorem jal (target : BitVec 26) : Statement (.jal target) := encodeJ_row _ _
theorem beq (rs rt : RegNum) (imm : BitVec 16) : Statement (.beq rs rt imm) := encodeI_row _ _ _ _
theorem bne (rs rt : RegNum) (imm : BitVec 16) : Statement (.bne rs rt imm) := encodeI_row _ _ _ _
theorem addi (rt rs : RegNum) (imm : BitVec 16) : Statement (.addi rt rs imm) := encodeI_row _ _ _ _
theorem addiu (rt rs : RegNum) (imm : BitVec 16) : Statement (.addiu rt rs imm) := encodeI_row _ _ _ _
theorem slti (rt rs : RegNum) (imm : BitVec 16) : Statement (.slti rt rs imm) := encodeI_row _ _ _ _
theorem ori (rt rs : RegNum) (imm : BitVec 16) : Statement (.ori rt rs imm) := encodeI_row _ _ _ _
theorem lui (rt : RegNum) (imm : BitVec 16) : Statement (.lui rt imm) := encodeI_row _ _ _ _
theorem lw (rt rs : RegNum) (imm : BitVec 16) : Statement (.lw rt rs imm) := encodeI_row _ _ _ _
theorem sw (rt rs : RegNum) (imm : BitVec 16) : Statement (.sw rt rs imm) := encodeI_row _ _ _ _

end Sys2Proof.Laws.EncodingRow
end

