-- ==== Sys2Proof/Tests/Slice0.lean ====
section
/-! SUPPORT. The model's own tests: the smoke test of WellFormed, one decoded word per instruction, single steps on
values of 95_test_vectors.md, and for every obligation with hypotheses a witness that meets them together. -/

namespace Sys2Proof.Tests

open Sys2Proof Sys2Proof.Machine

/-! ## Helpers -/

/-- The test profile of 95_test_vectors.md (a profile, not a fact of the hardware). -/
def profile : Params :=
  { memValid := [⟨0x00400000, 0x1000⟩, ⟨0x10010000, 0x1000⟩, ⟨0x7FFFE000, 0x1000⟩]
    inEof := true
    fatalExitStatus := 1
    dumpIndexPad := .space
    dumpHexCase := .lower }

/-- The common start state of 95_test_vectors.md with the word `w` at the entry and these register values. -/
def start (w : Word) (regs : List (RegNum × Word)) : State :=
  regs.foldl (fun s p => s.setReg p.1 p.2) ((State.launch profile [] []).putWord 0x00400000#32 w)

/-- `s` with these bytes put at and above `a`. -/
def withBytes (s : State) (a : Word) : List Byte → State
  | [] => s
  | b :: rest => withBytes (s.putByte a b) (a + 1#32) rest

/-- `s` with this console input. -/
def withInput (s : State) (eof : Bool) (input : List Byte) : State :=
  { s with cin := input, params := { s.params with inEof := eof } }

/-- `s` at this PC. -/
def atPc (s : State) (p : Word) : State := s.setPc p

/-- Whether there is a next state with this property. -/
def nextIs (r : Result) (p : State → Bool) : Bool :=
  match r with
  | .next t => p t
  | .fault _ => false
  | .refused _ => false

theorem next_of {r : Result} (p : State → Prop) [DecidablePred p] (h : nextIs r (fun t => decide (p t)) = true) :
    ∃ t, r = .next t ∧ p t := by
  cases r with
  | next t => exact ⟨t, rfl, of_decide_eq_true h⟩
  | fault _ => cases h
  | refused _ => cases h

/-- Whether register `k` holds `v` after one step, and the PC is `p`. -/
def gives (r : Result) (k : RegNum) (v p : Word) : Bool := nextIs r fun t => t.reg k == v && t.pc == p

/-- What a step wrote to COUT, with the PC, input and status after it. -/
def prints (r : Result) (bytes : List Byte) (p : Word) : Bool :=
  nextIs r fun t => t.cout == bytes && t.pc == p && t.status == .running

/-- Whether the step ended the run with this fault at this PC, and wrote these bytes. -/
def faults (r : Result) (kind : FaultKind) (info : Word) (bytes : List Byte) (p : Word) : Bool :=
  nextIs r fun t => t.status == .faulted kind info && t.cout == bytes && t.pc == p

/-! ## WellFormed: the one check, at its boundary -/

theorem test_wf_shift_31 : (Instr.sll 8 9 31).wf = true := by decide

theorem test_wf_refuses_shift_32 : (Instr.sll 8 9 32).wf = false := by decide

/-! ## Decoding: one word per instruction, its fields written out (30_encoding.md R52 to R55) -/

theorem test_decode_sll : decode 0b000000_00000_01001_01010_00100_000000#32 = .instr (.sll 10 9 4) := by decide

theorem test_decode_jr : decode 0b000000_11111_00000_00000_00000_001000#32 = .instr (.jr 31) := by decide

theorem test_decode_syscall : decode 0b000000_00000_00000_00000_00000_001100#32 = .instr .syscall := by decide

theorem test_decode_add : decode 0b000000_01000_01001_01010_00000_100000#32 = .instr (.add 10 8 9) := by decide

theorem test_decode_addu : decode 0b000000_01001_00000_00100_00000_100001#32 = .instr (.addu 4 9 0) := by decide

theorem test_decode_sub : decode 0b000000_01000_01001_01010_00000_100010#32 = .instr (.sub 10 8 9) := by decide

theorem test_decode_or : decode 0b000000_01000_01001_01010_00000_100101#32 = .instr (.or 10 8 9) := by decide

theorem test_decode_slt : decode 0b000000_00000_00010_01001_00000_101010#32 = .instr (.slt 9 0 2) := by decide

theorem test_decode_mul : decode 0b011100_00100_00101_00010_00000_000010#32 = .instr (.mul 2 4 5) := by decide

theorem test_decode_j : decode 0b000010_00000100000000000000000100#32 = .instr (.j 0x0100004) := by decide

theorem test_decode_jal : decode 0b000011_00000100000000000000001000#32 = .instr (.jal 0x0100008) := by decide

theorem test_decode_beq : decode 0b000100_01000_01001_0000000000000001#32 = .instr (.beq 8 9 1) := by decide

theorem test_decode_bne : decode 0b000101_01000_00000_1111111111111101#32 = .instr (.bne 8 0 0xFFFD) := by decide

theorem test_decode_addi : decode 0b001000_01000_01001_0000000000001010#32 = .instr (.addi 9 8 10) := by decide

theorem test_decode_addiu : decode 0b001001_11101_01000_1111111111111100#32 = .instr (.addiu 8 29 0xFFFC) := by decide

theorem test_decode_slti : decode 0b001010_00010_01000_0000000001100100#32 = .instr (.slti 8 2 100) := by decide

theorem test_decode_ori : decode 0b001101_01001_01010_1011111011101111#32 = .instr (.ori 10 9 0xBEEF) := by decide

theorem test_decode_lui : decode 0b001111_00000_01000_0001000000000001#32 = .instr (.lui 8 0x1001) := by decide

theorem test_decode_lw : decode 0b100011_11101_11111_0000000000000100#32 = .instr (.lw 31 29 4) := by decide

theorem test_decode_sw : decode 0b101011_11101_11111_1111111111111100#32 = .instr (.sw 31 29 0xFFFC) := by decide

theorem test_decode_unmatched_function :
    decode 0b000000_11111_00000_11111_00000_001001#32 = .unmatchedFunction := by decide

theorem test_decode_unmatched_function_second_category :
    decode 0b011100_01000_01001_01010_00000_100000#32 = .unmatchedFunction := by decide

theorem test_decode_unimplemented_opcode :
    decode 0b001100_00000_01000_0000000000000001#32 = .unimplementedOpcode := by decide

theorem test_decode_ignored_shamt : decode 0x0109516A#32 = .instr (.slt 10 8 9) := by decide

theorem test_decode_ignored_rd : decode 0x03E0F808#32 = .instr (.jr 31) := by decide

theorem test_decode_table_word : decodeTableWord 32 0xAFBF0000 = some (.sw 31 29 0) := by decide

theorem test_decode_table_word_refused : decodeTableWord 32 0x42000018 = none := by decide

/-! ## Single steps (values of 95_test_vectors.md section 2) -/

theorem test_add_wraps :
    gives (step (start 0x01095020#32 [(8, 0x12345678#32), (9, 0x9ABCDEF0#32)])) 10 0xACF13568#32 0x00400004#32 = true := by
  decide

theorem test_add_writes_register_zero :
    gives (step (start 0x01090020#32 [(8, 0x00000001#32), (9, 0x00000002#32)])) 0 0x00000003#32 0x00400004#32 = true := by
  decide

theorem test_addu_wraps :
    gives (step (start 0x01095021#32 [(8, 0x80000000#32), (9, 0xFFFFFFFF#32)])) 10 0x7FFFFFFF#32 0x00400004#32 = true := by
  decide

theorem test_sub_borrows :
    gives (step (start 0x01095022#32 [(8, 0x00000000#32), (9, 0x00000001#32)])) 10 0xFFFFFFFF#32 0x00400004#32 = true := by
  decide

theorem test_sub_order :
    gives (step (start 0x01095022#32 [(8, 0x12345678#32), (9, 0x9ABCDEF0#32)])) 10 0x77777788#32 0x00400004#32 = true := by
  decide

theorem test_sll_by_31 :
    gives (step (start 0x000957C0#32 [(9, 0x00000001#32)])) 10 0x80000000#32 0x00400004#32 = true := by decide

theorem test_sll_zero_word_keeps_register_zero :
    gives (step (start 0x00000000#32 [(0, 0x00000003#32)])) 0 0x00000003#32 0x00400004#32 = true := by decide

theorem test_or :
    gives (step (start 0x01095025#32 [(8, 0x12345678#32), (9, 0x9ABCDEF0#32)])) 10 0x9ABCDEF8#32 0x00400004#32 = true := by
  decide

theorem test_slt_signed :
    gives (step (start 0x0109502A#32 [(8, 0x80000000#32), (9, 0x00000001#32)])) 10 0x00000001#32 0x00400004#32 = true := by
  decide

theorem test_slt_not_less :
    gives (step (start 0x0109502A#32 [(8, 0x7FFFFFFF#32), (9, 0x00000001#32)])) 10 0x00000000#32 0x00400004#32 = true := by
  decide

theorem test_mul_low_word :
    gives (step (start 0x71095002#32 [(8, 0x12345678#32), (9, 0x9ABCDEF0#32)])) 10 0x242D2080#32 0x00400004#32 = true := by
  decide

theorem test_mul_negative :
    gives (step (start 0x71095002#32 [(8, 0x80000000#32), (9, 0xFFFFFFFF#32)])) 10 0x80000000#32 0x00400004#32 = true := by
  decide

theorem test_addi_sign_extends :
    gives (step (start 0x21098000#32 [(8, 0x00000010#32)])) 9 0xFFFF8010#32 0x00400004#32 = true := by decide

theorem test_addi_wraps :
    gives (step (start 0x21090001#32 [(8, 0x7FFFFFFF#32)])) 9 0x80000000#32 0x00400004#32 = true := by decide

theorem test_addiu_sign_extends :
    gives (step (start 0x2409FFFF#32 [])) 9 0xFFFFFFFF#32 0x00400004#32 = true := by decide

theorem test_addiu_writes_register_zero :
    gives (step (start 0x24000001#32 [])) 0 0x00000001#32 0x00400004#32 = true := by decide

theorem test_ori_zero_extends :
    gives (step (start 0x35098001#32 [(8, 0xFFFF0000#32)])) 9 0xFFFF8001#32 0x00400004#32 = true := by decide

theorem test_lui : gives (step (start 0x3C088000#32 [])) 8 0x80000000#32 0x00400004#32 = true := by decide

theorem test_slti_sign_extends :
    gives (step (start 0x29098000#32 [(8, 0xFFFF7FFF#32)])) 9 0x00000001#32 0x00400004#32 = true := by decide

theorem test_slti_suppresses_register_zero :
    gives (step (start 0x28000005#32 [(0, 0x00000001#32)])) 0 0x00000001#32 0x00400004#32 = true := by decide

theorem test_jr_to_unaligned :
    gives (step (start 0x01200008#32 [(9, 0x00400002#32)])) 9 0x00400002#32 0x00400002#32 = true := by decide

theorem test_beq_taken :
    gives (step (start 0x11098000#32 [(8, 0x00000005#32), (9, 0x00000005#32)])) 8 0x00000005#32 0x003E0004#32 = true := by
  decide

theorem test_beq_not_taken :
    gives (step (start 0x11097FFF#32 [(8, 0x00000005#32), (9, 0x00000006#32)])) 8 0x00000005#32 0x00400004#32 = true := by
  decide

theorem test_bne_taken :
    gives (step (start 0x15097FFF#32 [(8, 0x00000005#32), (9, 0x00000006#32)])) 8 0x00000005#32 0x00420000#32 = true := by
  decide

theorem test_bne_not_taken :
    gives (step (start 0x15087FFF#32 [(8, 0x00000005#32)])) 8 0x00000005#32 0x00400004#32 = true := by decide

theorem test_j : gives (step (start 0x08100004#32 [])) 8 0x00000000#32 0x00400010#32 = true := by decide

theorem test_j_region_of_the_next_pc : jumpTarget 0x0FFFFFFC#32 0x0000000#26 = 0x10000000#32 := by decide

theorem test_jal_links : gives (step (start 0x0C100008#32 [])) 31 0x00400004#32 0x00400020#32 = true := by decide

theorem test_jal_region_wraps : jumpTarget 0xFFFFFFFC#32 0x3FFFFFF#26 = 0x0FFFFFFC#32 := by decide

theorem test_lw_old_base :
    gives (step ((start 0x8D080000#32 [(8, 0x10010000#32)]).putWord 0x10010000#32 0xCAFEF00D#32)) 8 0xCAFEF00D#32
      0x00400004#32 = true := by decide

theorem test_lw_misaligned :
    faults (step (start 0x8D090000#32 [(8, 0x10010002#32)])) .addressError 0x10010002#32 [] 0x00400000#32 = true := by
  decide

theorem test_sw_little_endian :
    nextIs (step (start 0xAFA9FFFC#32 [(9, 0x12345678#32)])) (fun t =>
      t.memRead1 0x7FFFEFF8#32 == some 0x78#8 && t.memRead1 0x7FFFEFFB#32 == some 0x12#8) = true := by decide

theorem test_sw_unbacked :
    faults (step (start 0xAC090008#32 [(0, 0xFFFFFFFC#32)])) .addressError 0x00000004#32 [] 0x00400000#32 = true := by
  decide

theorem test_print_int_most_negative :
    prints (step (start 0x0000000C#32 [(2, 1#32), (4, 0x80000000#32)]))
      [0x2D#8, 0x32#8, 0x31#8, 0x34#8, 0x37#8, 0x34#8, 0x38#8, 0x33#8, 0x36#8, 0x34#8, 0x38#8] 0x00400004#32 = true := by
  decide

theorem test_print_int_zero :
    prints (step (start 0x0000000C#32 [(2, 1#32), (4, 0#32)])) [0x30#8] 0x00400004#32 = true := by decide

theorem test_print_string :
    prints (step (withBytes (start 0x0000000C#32 [(2, 4#32), (4, 0x10010000#32)]) 0x10010000#32
      [0x48#8, 0x69#8, 0x0A#8, 0x00#8])) [0x48#8, 0x69#8, 0x0A#8] 0x00400004#32 = true := by decide

theorem test_print_string_unbacked :
    faults (step (withBytes (start 0x0000000C#32 [(2, 4#32), (4, 0x10010FFE#32)]) 0x10010FFE#32 [0x41#8, 0x42#8]))
      .addressError 0x10011000#32 [0x41#8, 0x42#8] 0x00400000#32 = true := by decide

theorem test_read_int_digits_then_text :
    nextIs (step (withInput (start 0x0000000C#32 [(2, 5#32)]) true
      [0x31#8, 0x32#8, 0x33#8, 0x61#8, 0x62#8, 0x63#8, 0x0A#8, 0x39#8])) (fun t =>
      t.reg 2 == 123#32 && t.cin == [0x39#8] && t.pc == 0x00400004#32) = true := by decide

theorem test_read_int_wraps :
    nextIs (step (withInput (start 0x0000000C#32 [(2, 5#32)]) true
      [0x34#8, 0x32#8, 0x39#8, 0x34#8, 0x39#8, 0x36#8, 0x37#8, 0x32#8, 0x39#8, 0x37#8, 0x0A#8])) (fun t =>
      t.reg 2 == 1#32 && t.cin == []) = true := by decide

theorem test_print_character_low_byte :
    prints (step (start 0x0000000C#32 [(2, 11#32), (4, 0x00000141#32)])) [0x41#8] 0x00400004#32 = true := by decide

theorem test_exit :
    nextIs (step (start 0x0000000C#32 [(2, 10#32)])) (fun t =>
      t.status == .halted && t.halt && t.pc == 0x00400004#32) = true := by decide

theorem test_unknown_syscall :
    faults (step (start 0x0000000C#32 [(2, 0x0001000A#32)])) .unknownSyscall 0x0001000A#32 [] 0x00400000#32 = true := by
  decide

/-- 44_syscall.md R116: the line of `$sp` at reset, "$29 : 7fffeffc". -/
theorem test_dump_line :
    State.reset.dumpLine 29 = [0x24#8, 0x32#8, 0x39#8, 0x20#8, 0x3A#8, 0x20#8, 0x37#8, 0x66#8, 0x66#8, 0x66#8, 0x65#8,
      0x66#8, 0x66#8, 0x63#8, 0x0A#8] := by decide

theorem test_unmatched_function :
    gives (step (start 0x03E0F809#32 [(31, 0x10010000#32)])) 31 0x10010000#32 0x00400004#32 = true := by decide

theorem test_unimplemented_opcode :
    faults (step (start 0x30080001#32 [])) .unimplementedOpcode 0x30080001#32 [] 0x00400000#32 = true := by decide

theorem test_fetch_error :
    faults (step (atPc (start 0#32 []) 0x00400002#32)) .fetchError 0x00400002#32 [] 0x00400002#32 = true := by decide

/-- A word placed at reset runs in the first step (log entry 11). -/
theorem test_first_step_after_reset :
    nextIs (step (State.reset.withFetchWord 32 0x3C081001)) (fun t => t.reg 8 == 0x10010000#32) = true := by decide

/-! ## Witnesses: every hypothesis of every obligation is met, the hypotheses of one clause together -/

theorem test_witness_DecodeOfEncodeIsTheInstruction : (Instr.sll 31 31 31).wf = true ∧ (Instr.sw 0 31 0xFFFF).wf = true := by
  decide

theorem test_witness_EncodeOfDecodeKeepsUsedBits : decode 0x0109516A#32 = .instr (.slt 10 8 9) := by decide

theorem test_witness_DecoderFollowsTheOpcodeTable :
    decode 0x0109516A#32 = .instr (.slt 10 8 9) ∧
      ((Instr.mul 0 0 0).row ∈ opcodeTable ∧ 0x71095002#32 &&& (Instr.mul 0 0 0).row.mask = (Instr.mul 0 0 0).row.pattern) := by
  decide

theorem test_witness_UnusedFieldsAreIgnored :
    decode 0x0109502A#32 = .instr (.slt 10 8 9) ∧
      0x0109516A#32 &&& (Instr.slt 10 8 9).row.used = 0x0109502A#32 &&& (Instr.slt 10 8 9).row.used := by decide

theorem test_witness_EveryWordIsInOneClass :
    decode 0xFFFFFFFF#32 = .unimplementedOpcode ∧ decode 0x0000003F#32 = .unmatchedFunction ∧
      decode 0x70000000#32 = .unmatchedFunction ∧ decode 0x00000000#32 = .instr (.sll 0 0 0) ∧
      decode 0xAFFFFFFF#32 = .instr (.sw 31 31 0xFFFF) := by decide

theorem test_witness_AddAndAdduWrap :
    IsRWord 0x03FFF820#32 0x00 0x20 31 31 31 ∧ IsRWord 0x00000021#32 0x00 0x21 0 0 0 := by decide

theorem test_witness_SubWraps : IsRWord 0x01095022#32 0x00 0x22 8 9 10 := by decide

theorem test_witness_SllShiftsLeft : IsRWord 0x00095FC0#32 0x00 0x00 0 9 11 := by decide

theorem test_witness_OrIsBitwise : IsRWord 0x01095025#32 0x00 0x25 8 9 10 := by decide

theorem test_witness_SltComparesSigned : IsRWord 0x0109516A#32 0x00 0x2A 8 9 10 := by decide

theorem test_witness_MulKeepsTheLowWord : IsRWord 0x71095002#32 0x1C 0x02 8 9 10 := by decide

theorem test_witness_AddiAndAddiuWrap :
    IsIWord 0x2109000A#32 0x08 8 9 10 ∧ IsIWord 0x27FF8000#32 0x09 31 31 0x8000 := by decide

theorem test_witness_OriZeroExtends : IsIWord 0x3529BEEF#32 0x0D 9 9 0xBEEF := by decide

theorem test_witness_LuiLoadsTheUpperHalf : IsIWord 0x3FE8FFFF#32 0x0F 31 8 0xFFFF := by decide

theorem test_witness_SltiSuppressesRegisterZero :
    IsIWord 0x28000005#32 0x0A 0 0 5 ∧ (1 : RegNum) ≠ 0 := by decide

theorem test_witness_JrJumpsToTheRegister : IsRWord 0x03E0F808#32 0x00 0x08 31 0 31 := by decide

theorem test_witness_BranchesCompareRegisters :
    IsIWord 0x1109FFFF#32 0x04 8 9 0xFFFF ∧ IsIWord 0x1500FFFD#32 0x05 8 0 0xFFFD := by decide

theorem test_witness_JumpStaysInItsRegion : IsJWord 0x0BFFFFFF#32 0x02 0x3FFFFFF := by decide

theorem test_witness_JalLinksThePcPlusFour : IsJWord 0x0C100008#32 0x03 0x0100008 := by decide

theorem test_witness_JrReturnsBehindTheJal : ∃ t, exec (.jal 0x0100008) State.reset = .next t ∧ t.pc = 0x00400020#32 :=
  next_of _ (by decide)

theorem test_witness_TransfersKeepThePcAligned :
    (∃ t, exec (.beq 0 0 0x8000) State.reset = .next t ∧ t.pc = 0x003E0004#32) ∧ State.reset.pc.toNat % 4 = 0 ∧
      ∀ rs, Instr.beq 0 0 0x8000 ≠ .jr rs := by
  refine ⟨next_of _ (by decide), by decide, by simp⟩

/-- The last word of the data region, and then a misaligned address and one past the region. -/
theorem test_witness_LwLoadsTheWord :
    IsIWord 0x8D090000#32 0x23 8 9 0 ∧
      (let s := (start 0#32 [(8, 0x10010FFC#32)]).putWord 0x10010FFC#32 0xCAFEF00D#32
       (s.effectiveAddress 8 0).toNat % 4 = 0 ∧ s.memRead1 (s.effectiveAddress 8 0) = some 0x0D#8 ∧
        s.memRead1 (s.effectiveAddress 8 0 + 1#32) = some 0xF0#8 ∧ s.memRead1 (s.effectiveAddress 8 0 + 2#32) = some 0xFE#8 ∧
        s.memRead1 (s.effectiveAddress 8 0 + 3#32) = some 0xCA#8) ∧
      (let s := start 0#32 [(8, 0x10010FFE#32)]
       (s.effectiveAddress 8 0).toNat % 4 ≠ 0 ∧ s.memRead1 (s.effectiveAddress 8 0 + BitVec.ofNat 32 2) = none) ∧
      (let s := start 0#32 [(8, 0x10011000#32)]
       (s.effectiveAddress 8 0).toNat % 4 = 0 ∧ s.memRead1 (s.effectiveAddress 8 0 + BitVec.ofNat 32 0) = none) := by
  decide

theorem test_witness_SwStoresTheWord :
    IsIWord 0xAFA9FFFC#32 0x2B 29 9 0xFFFC ∧
      (let s := start 0#32 [(8, 0x10010FFC#32)]
       s.effectiveAddress 8 0 = 0x10010FFC#32 ∧ (0x10010FFC#32).toNat % 4 = 0 ∧
        ∀ k < 4, s.byteValid (0x10010FFC#32 + BitVec.ofNat 32 k) = true) ∧
      (let s := start 0#32 [(8, 0x10011000#32)]
       s.effectiveAddress 8 0 = 0x10011000#32 ∧ s.memRead1 (0x10011000#32 + BitVec.ofNat 32 0) = none) ∧
      (let s := start 0#32 [(8, 0x10010001#32)]
       s.effectiveAddress 8 0 = 0x10010001#32 ∧ (0x10010001#32).toNat % 4 ≠ 0) := by decide

/-- A state of the test profile whose data region is backed, for the store and load witnesses. -/
def dataState : State := start 0x00000000#32 [(8, 0x10010000#32), (9, 0xDEADBEEF#32)]

theorem test_witness_LoadReturnsTheStoredWord :
    ∃ t u, exec (.sw 9 8 0) dataState = .next t ∧ t.status = .running ∧
      [(0x10010004#32, 1#32), (0x0040000C#32, 2#32)].foldlM (fun u p => u.memWrite4 p.1 p.2) t = some u ∧
      (∀ p ∈ [(0x10010004#32, 1#32), (0x0040000C#32, 2#32)], p.1 ≠ dataState.effectiveAddress 8 0) ∧
      u.effectiveAddress 8 0 = dataState.effectiveAddress 8 0 := by
  have h : dataState.effectiveAddress 8 0 = 0x10010000#32 := by decide
  refine ⟨_, _, rfl, by decide, rfl, by rw [h]; simp, ?_⟩
  rw [h]
  decide

theorem test_witness_ByteOfAStoredWord : (dataState.memWrite4 0x10010FFC#32 0x12345678#32).isSome = true ∧
      dataState.memRead4 0x00400000#32 = some 0x00000000#32 ∧ 0 < 4 ∧ 3 < 4 := by
  decide

theorem test_witness_NextFetchSeesTheStore :
    dataState.pc + 4#32 = (dataState.setReg 8 0x00400004#32).effectiveAddress 8 0 ∧
      ∃ t, exec (.sw 9 8 0) (dataState.setReg 8 0x00400004#32) = .next t ∧ t.status = .running :=
  ⟨by decide, next_of _ (by decide)⟩

theorem test_witness_PrintIntWritesDecimal :
    ((dataState.setReg 2 1#32).reg 2).toNat = 1 ∧ signedOf ((dataState.setReg 4 0x80000000#32).reg 4) < 0 ∧
      0 ≤ signedOf ((dataState.setReg 4 0x7FFFFFFF#32).reg 4) := by decide

/-- "AB" up to the end of the data region, and "A" before a terminator. -/
theorem test_witness_PrintStringWritesUpToNul :
    (let s := withBytes (start 0#32 [(2, 4#32), (4, 0x10010FFE#32)]) 0x10010FFE#32 [0x41#8, 0x42#8]
     (s.reg 2).toNat = 4 ∧ StringAt s (s.reg 4) [0x41#8, 0x42#8] ∧ s.memRead1 (s.reg 4 + BitVec.ofNat 32 2) = none) ∧
      (let s := withBytes (start 0#32 [(2, 4#32), (4, 0x10010FFE#32)]) 0x10010FFE#32 [0x41#8, 0x00#8]
       (s.reg 2).toNat = 4 ∧ StringAt s (s.reg 4) [0x41#8] ∧ s.memRead1 (s.reg 4 + BitVec.ofNat 32 1) = some 0x00#8) := by
  unfold StringAt
  decide

/-- `n` cells holding 1, from address `a` on. -/
def ones : Nat → Nat → Memory
  | 0, _ => []
  | n + 1, a => (a, 0x01#8) :: ones n (a + 1)

theorem lookup_ones (n a c : Nat) (h : a ≤ c) (hc : c < a + n) : Memory.lookup (ones n a) c = some 0x01#8 := by
  induction n generalizing a with
  | zero => omega
  | succ n ih =>
    unfold ones Memory.lookup
    by_cases e : a = c
    · simp [e]
    · rw [if_neg e]; exact ih (a + 1) (by omega) (by omega)

/-- A memory with no NUL and no unbacked byte, and one with an unbacked byte: both sides of the equivalence occur. -/
theorem test_witness_EndlessStringHasNoStep :
    (∃ s : State, (s.reg 2).toNat = 4 ∧ ∀ a, ∃ b, s.memRead1 a = some b ∧ b ≠ 0x00#8) ∧
      (∃ s : State, (s.reg 2).toNat = 4 ∧ ∃ a, s.memRead1 a = none) := by
  refine ⟨⟨{ State.reset.setReg 2 4#32 with mem := ones addressCount 0 }, by decide, fun a => ⟨0x01#8, ?_, by decide⟩⟩,
    ⟨start 0#32 [(2, 4#32)], by decide, 0#32, by decide⟩⟩
  have ha := a.isLt
  rw [memRead1_eq_some]
  constructor
  · show Region.holds ⟨0, 2 ^ 32⟩ a.toNat || false = true
    simp [Region.holds]
    omega
  · have h : Memory.lookup (ones addressCount 0) a.toNat = some 0x01#8 :=
      lookup_ones addressCount 0 a.toNat (Nat.zero_le _) (by unfold addressCount; omega)
    unfold State.byteAt
    rw [h]
    rfl

theorem test_witness_ReadIntTakesOneLine :
    (let s := withInput (start 0#32 [(2, 5#32)]) true [0x37#8, 0x0A#8, 0x39#8]
     (s.reg 2).toNat = 5 ∧ 0x0A#8 ∉ [0x37#8] ∧ s.cin = [0x37#8] ++ [0x0A#8] ++ [0x39#8]) ∧
      (let s := withInput (start 0#32 [(2, 5#32)]) true []
       (s.reg 2).toNat = 5 ∧ 0x0A#8 ∉ s.cin ∧ s.params.inEof = true) ∧
      (let s := withInput (start 0#32 [(2, 5#32)]) false [0x31#8]
       (s.reg 2).toNat = 5 ∧ 0x0A#8 ∉ s.cin ∧ s.params.inEof = false) := by decide

theorem test_witness_ReadIntReadsBackPrintInt :
    let s := start 0#32 [(2, 1#32), (4, 0x7FFFFFFF#32)]
    let ds := [0x32#8, 0x31#8, 0x34#8, 0x37#8, 0x34#8, 0x38#8, 0x33#8, 0x36#8, 0x34#8, 0x37#8]
    let u := withInput (start 0#32 [(2, 5#32)]) false (ds ++ [0x0A#8] ++ [])
    (s.reg 2).toNat = 1 ∧ 0 ≤ signedOf (s.reg 4) ∧ s.cout = [] ∧ (u.reg 2).toNat = 5 ∧
      ∃ t, exec .syscall s = .next t ∧ u.cin = t.cout ++ [0x0A#8] ++ [] := by
  refine ⟨by decide, by decide, by decide, by decide, next_of _ (by decide)⟩

theorem test_witness_ExitSetsTheHaltFlag : ((dataState.setReg 2 10#32).reg 2).toNat = 10 := by decide

theorem test_witness_PrintCharacterWritesOneByte : ((dataState.setReg 2 11#32).reg 2).toNat = 11 := by decide

theorem test_witness_UnknownSelectorIsFatal :
    IsRWord 0x0000000C#32 0x00 0x0C 0 0 0 ∧ ((dataState.setReg 2 0x0001000A#32).reg 2).toNat ∉ serviceCodes ∧
      (dataState.reg 2).toNat ∉ serviceCodes := by decide

/-- A word in the last four bytes of the text region. -/
theorem test_witness_StepRunsTheDecodedInstruction :
    let s := (atPc dataState 0x00400FFC#32).putWord 0x00400FFC#32 0x01095020#32
    s.status = .running ∧ s.pc.toNat % 4 = 0 ∧ s.memRead1 s.pc = some 0x20#8 ∧ s.memRead1 (s.pc + 1#32) = some 0x50#8 ∧
      s.memRead1 (s.pc + 2#32) = some 0x09#8 ∧ s.memRead1 (s.pc + 3#32) = some 0x01#8 ∧
      decode (0x01#8 ++ 0x09#8 ++ 0x50#8 ++ 0x20#8) = .instr (.add 10 8 9) := by decide

theorem test_witness_HaltCheckAddsTheDump :
    (dataState.status = .running ∧ { dataState with halt := true }.halt = true) ∧
      ¬(dataState.status = .running ∧ dataState.halt = true) := by decide

theorem test_witness_ExitEndsTheRun :
    let s := start 0x0000000C#32 [(2, 10#32)]
    s.status = .running ∧ s.fetch = some 0x0000000C#32 ∧ decode 0x0000000C#32 = .instr .syscall ∧ (s.reg 2).toNat = 10 := by
  decide

theorem test_witness_ZeroWordOnlyAdvances :
    (let s := start 0x00000000#32 [(0, 3#32)]
     s.status = .running ∧ s.halt = false ∧ s.fetch = some 0x00000000#32) ∧
      (let s := start 0x00000040#32 [(0, 3#32)]
       s.status = .running ∧ s.halt = false ∧ s.fetch = some 0x00000040#32 ∧
        decode 0x00000040#32 = .instr (.sll 0 0 1)) := by decide

theorem test_witness_UnmatchedFunctionOnlyAdvances :
    (let s := start 0x0000000D#32 []
     s.status = .running ∧ s.halt = false ∧ s.fetch = some 0x0000000D#32 ∧ bitsOf 0x0000000D#32 26 6 = 0x00 ∧
      bitsOf 0x0000000D#32 0 6 ∉ implementedFuncts) ∧
      (let s := start 0x71095020#32 []
       s.status = .running ∧ s.halt = false ∧ s.fetch = some 0x71095020#32 ∧ bitsOf 0x71095020#32 26 6 = 0x1C ∧
        bitsOf 0x71095020#32 0 6 ≠ 0x02) := by decide

theorem test_witness_UnimplementedOpcodeIsFatal :
    let s := start 0x42000018#32 []
    s.status = .running ∧ s.fetch = some 0x42000018#32 ∧ bitsOf 0x42000018#32 26 6 ∉ implementedOpcodes := by decide

theorem test_witness_BadFetchIsFatal :
    (let s := atPc dataState 0x00400002#32
     s.status = .running ∧ s.pc.toNat % 4 ≠ 0) ∧
      (let s := atPc dataState 0x00401000#32
       s.status = .running ∧ s.memRead1 (s.pc + BitVec.ofNat 32 0) = none) := by decide

theorem test_witness_EndedRunsHaveNoStep :
    { dataState with status := .halted }.status ≠ .running ∧ (dataState.raise .fetchError 0#32).status ≠ .running := by
  decide

/-- Every cause of a fault occurs in a step. -/
theorem test_witness_EachFaultHasItsCause :
    (∃ t, step (atPc dataState 0x00401000#32) = .next t ∧ t.status = .faulted .fetchError 0x00401000#32) ∧
      (∃ t, step (start 0x42000018#32 []) = .next t ∧ t.status = .faulted .unimplementedOpcode 0x42000018#32) ∧
      (∃ t, step (start 0x8C090000#32 []) = .next t ∧ t.status = .faulted .addressError 0#32) ∧
      (∃ t, step (start 0xAC090002#32 []) = .next t ∧ t.status = .faulted .addressError 2#32) ∧
      (∃ t, step (start 0x0000000C#32 []) = .next t ∧ t.status = .faulted .unknownSyscall 0#32) ∧
      (∃ t, step (start 0x0000000C#32 [(2, 4#32), (4, 0x10011000#32)]) = .next t ∧
        t.status = .faulted .addressError 0x10011000#32) :=
  ⟨next_of _ (by decide), next_of _ (by decide), next_of _ (by decide), next_of _ (by decide), next_of _ (by decide),
    next_of _ (by decide)⟩

/-- A fault with bytes written before it, and one without. -/
theorem test_witness_FaultsArePrecise :
    (∃ t, step (withBytes (start 0x0000000C#32 [(2, 4#32), (4, 0x10010FFF#32)]) 0x10010FFF#32 [0x41#8]) = .next t ∧
      (t.status = .faulted .addressError 0x10011000#32 ∧ t.cout = [0x41#8])) ∧
      (∃ t, step (start 0x42000018#32 []) = .next t ∧ t.status = .faulted .unimplementedOpcode 0x42000018#32) :=
  ⟨next_of _ (by decide), next_of _ (by decide)⟩

/-- Each transition of the run status occurs. -/
theorem test_witness_StatusTransitions :
    (∃ t, step (start 0x00000000#32 []) = .next t ∧ t.status = .running) ∧
      (∃ t, step (start 0x0000000C#32 [(2, 10#32)]) = .next t ∧ t.status = .halted) ∧
      (∃ t, step (start 0x42000018#32 []) = .next t ∧ t.status.isFaulted = true) :=
  ⟨next_of _ (by decide), next_of _ (by decide), next_of _ (by decide)⟩

theorem test_witness_OnlyStoresChangeMemory :
    ∃ t, step ((start 0xAD090000#32 [(8, 0x10010000#32), (9, 7#32)]).putWord 0x10010000#32 0#32) = .next t ∧
      t.memRead1 0x10010000#32 ≠
        ((start 0xAD090000#32 [(8, 0x10010000#32), (9, 7#32)]).putWord 0x10010000#32 0#32).memRead1 0x10010000#32 :=
  next_of _ (by decide)

/-- A step from a set halt flag (no run reaches it), and the step that sets the flag and ends the run. -/
theorem test_witness_OnlyExitSetsTheHaltFlag :
    (∃ t, step { start 0x00000000#32 [] with halt := true } = .next t ∧ t.halt = true) ∧
      (∃ t, step (start 0x0000000C#32 [(2, 10#32)]) = .next t ∧
        ((start 0x0000000C#32 [(2, 10#32)]).halt = false ∧ t.halt = true)) :=
  ⟨next_of _ (by decide), next_of _ (by decide)⟩

theorem test_witness_OnlyDestinationsChange :
    ∃ t, step (start 0x24000001#32 []) = .next t ∧ t.reg 0 ≠ (start 0x24000001#32 []).reg 0 := next_of _ (by decide)

/-- A step that goes on, one that faults, and one that waits, each with a register that is no source. -/
theorem test_witness_OnlySourcesMatter :
    (∃ t, exec (.add 10 8 9) dataState = .next t ∧ (t.status = .running ∧ dataState.status = .running ∧
      10 ∉ sourceRegs (.add 10 8 9) dataState)) ∧
      (∃ t, exec (.lw 9 8 1) dataState = .next t ∧ (t.status ≠ .running ∧ 9 ∉ sourceRegs (.lw 9 8 1) dataState)) ∧
      (exec .syscall (withInput (start 0#32 [(2, 5#32)]) false []) = .fault .waitingForInput ∧
        4 ∉ sourceRegs .syscall (withInput (start 0#32 [(2, 5#32)]) false [])) :=
  ⟨next_of _ (by decide), next_of _ (by decide), rfl, by decide⟩

theorem test_witness_OutputIsNeverRead :
    ∃ t, step (start 0x0000000C#32 [(2, 11#32), (4, 0x41#32)]) = .next t ∧
      ((start 0x0000000C#32 [(2, 11#32), (4, 0x41#32)]).cout = [] ∧
        (start 0x0000000C#32 [(2, 11#32), (4, 0x41#32)]).cerr = [] ∧ t.cout = [0x41#8]) := next_of _ (by decide)

theorem test_witness_StreamsMoveOneWay :
    ∃ t, step (withInput (start 0x0000000C#32 [(2, 5#32)]) true [0x37#8, 0x0A#8]) = .next t ∧ t.cin = [] :=
  next_of _ (by decide)

theorem test_witness_HiAndLoNeverChange :
    ∃ t, step { start 0x71095002#32 [(8, 0x12345678#32)] with hi := 5#32, lo := 6#32 } = .next t ∧
      (t.hi = 5#32 ∧ t.lo = 6#32) := next_of _ (by decide)

theorem test_witness_StepKeepsTheInvariant :
    (start 0xAFA9FFFC#32 [(9, 7#32)]).Inv ∧
      ∃ t, step (start 0xAFA9FFFC#32 [(9, 7#32)]) = .next t ∧ t.status = .running :=
  ⟨by decide, next_of _ (by decide)⟩

/-- A launched run of two steps: the word at the entry is `exit` after the selector is set. -/
theorem test_witness_LaunchedRunsKeepTheInvariant :
    let m0 := ((start 0x2402000A#32 []).putWord 0x00400004#32 0x0000000C#32).mem
    profile.ok ∧ Memory.wf m0 ∧ (State.launch profile m0 []).MemoryBacked ∧
      ∃ t : State, Sys2Proof.core.run 2 (State.launch profile m0 []) = .next t ∧ t.status = .halted :=
  ⟨by decide, by decide, by decide, next_of _ (by decide)⟩

end Sys2Proof.Tests
end

section
/-! PROOFS, 00_scope.md: the core never reads COUT or CERR (section 4, R7). `State.withPriorOutput` puts other text
before what the two output streams hold; every operation, every instruction and the whole step commute with it. -/

namespace Sys2Proof.Machine

open Sys2Proof

/-- The state with `c` already on COUT and `e` already on CERR, before what it holds there. -/
def State.withPriorOutput (s : State) (c e : List Byte) : State :=
  { s with cout := c ++ s.cout, cerr := e ++ s.cerr }

/-- An answer with `c` and `e` before the output of its next state, if it has one. -/
def withPriorOutput (c e : List Byte) : Result → Result
  | .next t => .next (t.withPriorOutput c e)
  | .fault f => .fault f
  | .refused r => .refused r

section

variable (s : State) (c e : List Byte)

/-! ## What reads through the text already there -/

@[simp] theorem State.withPriorOutput_status : (s.withPriorOutput c e).status = s.status := rfl
@[simp] theorem State.withPriorOutput_halt : (s.withPriorOutput c e).halt = s.halt := rfl
@[simp] theorem State.withPriorOutput_reg (r : RegNum) : (s.withPriorOutput c e).reg r = s.reg r := rfl
@[simp] theorem State.withPriorOutput_cin : (s.withPriorOutput c e).cin = s.cin := rfl
@[simp] theorem State.withPriorOutput_params : (s.withPriorOutput c e).params = s.params := rfl
@[simp] theorem State.withPriorOutput_dump : (s.withPriorOutput c e).dump = s.dump := rfl
@[simp] theorem State.withPriorOutput_effectiveAddress (rs : RegNum) (imm : BitVec 16) :
    (s.withPriorOutput c e).effectiveAddress rs imm = s.effectiveAddress rs imm := rfl

@[simp] theorem State.withPriorOutput_memRead4 (a : Word) : (s.withPriorOutput c e).memRead4 a = s.memRead4 a :=
  memRead4_congr rfl rfl a

@[simp] theorem State.withPriorOutput_fetch : (s.withPriorOutput c e).fetch = s.fetch :=
  memRead4_congr rfl rfl s.pc

@[simp] theorem State.withPriorOutput_scanString (a : Word) :
    (s.withPriorOutput c e).scanString a = s.scanString a := by
  rw [scanString_congr (s := s) (t := s.withPriorOutput c e) rfl rfl]

/-- With nothing on the two streams, the text put before is all they hold. -/
theorem State.withPriorOutput_of_empty (hout : s.cout = []) (herr : s.cerr = []) :
    s.withPriorOutput c e = { s with cout := c, cerr := e } := by
  simp [State.withPriorOutput, hout, herr]

/-! ## Updates of the state commute with it -/

theorem State.advance_withPriorOutput : (s.withPriorOutput c e).advance = s.advance.withPriorOutput c e := rfl

theorem State.branch_withPriorOutput (taken : Bool) (imm : BitVec 16) :
    (s.withPriorOutput c e).branch taken imm = (s.branch taken imm).withPriorOutput c e := by
  cases taken <;> rfl

theorem State.memWrite4_withPriorOutput (a v : Word) :
    (s.withPriorOutput c e).memWrite4 a v = (s.memWrite4 a v).map (·.withPriorOutput c e) := by
  unfold State.memWrite4
  rw [wordValid_congr (s := s) (t := s.withPriorOutput c e) rfl]
  cases s.wordValid a <;> rfl

theorem State.out_withPriorOutput (bytes : List Byte) :
    (s.withPriorOutput c e).out bytes = (s.out bytes).withPriorOutput c e := by
  simp [State.withPriorOutput, State.out]

/-- The diagnostic depends on the model's counter, not on the text before it. -/
theorem State.raise_withPriorOutput (kind : FaultKind) (info : Word) :
    (s.withPriorOutput c e).raise kind info = (s.raise kind info).withPriorOutput c e := by
  simp [State.withPriorOutput, State.raise, State.err, State.diagnostic]

theorem State.haltCheck_withPriorOutput :
    (s.withPriorOutput c e).haltCheck = s.haltCheck.withPriorOutput c e := by
  unfold State.haltCheck
  rw [State.withPriorOutput_status, State.withPriorOutput_halt, State.withPriorOutput_dump, State.out_withPriorOutput]
  split <;> rfl

/-! ## Every meaning commutes with it -/

theorem servicePrintString_withPriorOutput :
    servicePrintString (s.withPriorOutput c e) = withPriorOutput c e (servicePrintString s) := by
  simp only [servicePrintString, State.withPriorOutput_reg, State.withPriorOutput_scanString,
    State.out_withPriorOutput, State.advance_withPriorOutput, State.raise_withPriorOutput]
  cases s.scanString (s.reg .a0) <;> rfl

theorem serviceReadInt_withPriorOutput :
    serviceReadInt (s.withPriorOutput c e) = withPriorOutput c e (serviceReadInt s) := by
  simp only [serviceReadInt, State.withPriorOutput_params, State.withPriorOutput_cin]
  cases readInt s.params.inEof s.cin <;> rfl

theorem execSyscall_withPriorOutput :
    execSyscall (s.withPriorOutput c e) = withPriorOutput c e (execSyscall s) := by
  unfold execSyscall
  rw [State.withPriorOutput_reg]
  split
  · simp only [servicePrintInt, State.withPriorOutput_reg, State.out_withPriorOutput, State.advance_withPriorOutput,
      withPriorOutput]
  · exact servicePrintString_withPriorOutput s c e
  · exact serviceReadInt_withPriorOutput s c e
  · rfl
  · simp only [servicePrintCharacter, State.withPriorOutput_reg, State.out_withPriorOutput,
      State.advance_withPriorOutput, withPriorOutput]
  · rw [State.raise_withPriorOutput]; rfl

theorem execLw_withPriorOutput (rt rs : RegNum) (imm : BitVec 16) :
    execLw rt rs imm (s.withPriorOutput c e) = withPriorOutput c e (execLw rt rs imm s) := by
  simp only [execLw, State.withPriorOutput_effectiveAddress, State.withPriorOutput_memRead4,
    State.raise_withPriorOutput]
  cases s.memRead4 (s.effectiveAddress rs imm) <;> rfl

theorem execSw_withPriorOutput (rt rs : RegNum) (imm : BitVec 16) :
    execSw rt rs imm (s.withPriorOutput c e) = withPriorOutput c e (execSw rt rs imm s) := by
  simp only [execSw, State.withPriorOutput_effectiveAddress, State.withPriorOutput_reg,
    State.memWrite4_withPriorOutput, State.raise_withPriorOutput]
  cases s.memWrite4 (s.effectiveAddress rs imm) (s.reg rt) <;> rfl

theorem execSlti_withPriorOutput (rt rs : RegNum) (imm : BitVec 16) :
    execSlti rt rs imm (s.withPriorOutput c e) = withPriorOutput c e (execSlti rt rs imm s) := by
  unfold execSlti
  split <;> rfl

/-- The instructions other than a load, a store, `slti`, a branch and `syscall` update one register and the PC, or the
PC alone, on their only path: they commute by definition. -/
theorem exec_withPriorOutput (i : Instr) :
    exec i (s.withPriorOutput c e) = withPriorOutput c e (exec i s) := by
  cases i with
  | syscall => exact execSyscall_withPriorOutput s c e
  | lw rt rs imm => exact execLw_withPriorOutput s c e rt rs imm
  | sw rt rs imm => exact execSw_withPriorOutput s c e rt rs imm
  | slti rt rs imm => exact execSlti_withPriorOutput s c e rt rs imm
  | beq rs rt imm => exact congrArg Host.Outcome.next (s.branch_withPriorOutput c e _ imm)
  | bne rs rt imm => exact congrArg Host.Outcome.next (s.branch_withPriorOutput c e _ imm)
  | sll | jr | add | addu | sub | or | slt | mul | j | jal | addi | addiu | ori | lui => rfl

/-! ## The cycle -/

theorem dispatch_withPriorOutput (w : Word) :
    dispatch w (s.withPriorOutput c e) = withPriorOutput c e (dispatch w s) := by
  unfold dispatch
  split
  · exact exec_withPriorOutput s c e _
  · rfl
  · rw [State.raise_withPriorOutput]; rfl

theorem checked_withPriorOutput (r : Result) : checked (withPriorOutput c e r) = withPriorOutput c e (checked r) := by
  cases r with
  | next t => exact congrArg Host.Outcome.next (t.haltCheck_withPriorOutput c e)
  | fault f => rfl
  | refused r => rfl

/-- A step after other output answers what it answered, with the other output before its own: also when it answers no
next state. -/
theorem step_withPriorOutput : step (s.withPriorOutput c e) = withPriorOutput c e (step s) := by
  by_cases hr : s.status = .running
  · cases hf : s.fetch with
    | none =>
      rw [step_of_no_fetch hr hf, step_of_no_fetch (by simpa using hr) (by simpa using hf),
        State.raise_withPriorOutput]
      rfl
    | some w =>
      rw [step_of_fetch hr hf, step_of_fetch (by simpa using hr) (by simpa using hf), dispatch_withPriorOutput,
        checked_withPriorOutput]
  · rw [step_of_ended hr, step_of_ended (by simpa using hr)]
    rfl

end

/-- Settles O53: putting text before what the output streams hold commutes with the step, and on empty streams it is
the text itself. -/
theorem outputIsNeverRead : Obligations.OutputIsNeverRead := by
  unfold Obligations.OutputIsNeverRead
  intro s t c e hout herr h
  have hstep : step (s.withPriorOutput c e) = .next (t.withPriorOutput c e) := by
    rw [step_withPriorOutput, h]
    rfl
  rwa [State.withPriorOutput_of_empty s c e hout herr] at hstep

end Sys2Proof.Machine
end

section
/-! PROOFS, 10_state.md: which registers a step reads and writes (R16), HI and LO (R21), the halt flag (R24) and the
end of the run (R25). What a step writes is read off `Effect`, through `step_effect`; what it reads is the relation
`SameButReg` between the answers of one instruction on two values of a register. -/

namespace Sys2Proof.Machine

open Sys2Proof

/-! ## What a step writes: registers, HI, LO and the halt flag -/

/-- A step that completes runs an instruction, with one of its effects and then the halt check; or the word at the PC
is no instruction, or there is none, and registers, HI, LO and the halt flag stay. -/
theorem step_effect {s t : State} (h : step s = .next t) :
    (∃ w i u, s.fetch = some w ∧ decode w = .instr i ∧ Effect i s u ∧ t = u.haltCheck) ∨
    ((¬∃ w i, s.fetch = some w ∧ decode w = .instr i) ∧ SameRegs s t ∧ SameHiLo s t ∧ t.halt = s.halt) := by
  obtain ⟨-, ⟨hf, rfl⟩ | ⟨w, u, hf, rfl, ⟨i, hd, hx⟩ | ⟨hd, rfl⟩ | ⟨hd, rfl⟩⟩⟩ := step_next_cases h
  · exact .inr ⟨by simp [hf], fun _ => rfl, ⟨rfl, rfl⟩, rfl⟩
  · exact .inl ⟨w, i, u, hf, hd, exec_effect hx, rfl⟩
  · exact .inr ⟨by simp [hf, hd], by simp [SameRegs], by simp [SameHiLo], by simp⟩
  · exact .inr ⟨by simp [hf, hd], by simp [SameRegs], by simp [SameHiLo], by simp⟩

theorem Effect.sameHiLo {i : Instr} {s t : State} (e : Effect i s t) : SameHiLo s t := by
  cases e <;> exact ⟨rfl, rfl⟩

/-- A register that is no destination keeps its value: only a register result and service 5 write one. -/
theorem Effect.reg_of_not_dest {i : Instr} {s t : State} (e : Effect i s t) {r : RegNum} (hr : r ∉ destRegs i s) :
    t.reg r = s.reg r := by
  cases e with
  | register d v p hd _ => exact State.reg_setReg_of_ne _ (ne_of_mem_of_not_mem hd hr).symm v
  | input v rest hi h5 _ =>
    have hne : r ≠ .v0 := by simpa [hi, destRegs, h5] using hr
    exact State.reg_setReg_of_ne _ hne v
  | pcOnly | store | output | exit | badAddress | badByte | badSelector => rfl

/-- The instruction is the exit service in `s` and sets the halt flag, or it is not and keeps the flag. -/
theorem Effect.halt_cases {i : Instr} {s t : State} (e : Effect i s t) :
    ((i = .syscall ∧ (s.reg .v0).toNat = 10) ∧ t.halt = true) ∨
    (¬(i = .syscall ∧ (s.reg .v0).toNat = 10) ∧ t.halt = s.halt) := by
  cases e with
  | exit hi h10 => exact .inl ⟨⟨hi, h10⟩, rfl⟩
  | register _ _ _ _ hi => exact .inr ⟨fun h => hi h.1, rfl⟩
  | pcOnly _ _ hi => exact .inr ⟨fun h => hi h.1, rfl⟩
  | store _ _ _ hi _ => exact .inr ⟨by simp [hi], rfl⟩
  | badAddress _ _ _ hi _ => exact .inr ⟨by rcases hi with rfl | rfl <;> simp, rfl⟩
  | output _ _ hv => exact .inr ⟨by omega, rfl⟩
  | input _ _ _ hv _ => exact .inr ⟨by omega, rfl⟩
  | badByte _ _ hv _ _ => exact .inr ⟨by omega, rfl⟩
  | badSelector _ hv => exact .inr ⟨fun h => hv (by simp [h.2, serviceCodes]), rfl⟩

/-! ## The halt flag -/

/-- The next step runs `syscall` with the exit service selected. -/
def RunsExit (s : State) : Prop := ∃ w, s.fetch = some w ∧ decode w = .instr .syscall ∧ (s.reg .v0).toNat = 10

theorem step_halt_cases {s t : State} (h : step s = .next t) :
    (RunsExit s ∧ t.halt = true) ∨ (¬RunsExit s ∧ t.halt = s.halt) := by
  obtain ⟨w, i, u, hf, hd, e, rfl⟩ | ⟨hno, -, -, hh⟩ := step_effect h
  · have hiff : RunsExit s ↔ i = .syscall ∧ (s.reg .v0).toNat = 10 := by simp [RunsExit, hf, hd]
    simpa only [hiff, haltCheck_halt] using e.halt_cases
  · exact .inr ⟨fun ⟨w, hf, hd, _⟩ => hno ⟨w, _, hf, hd⟩, hh⟩

theorem haltCheck_status_of_halt {s : State} (h : s.halt = true) : s.haltCheck.status ≠ .running := by
  rcases haltCheck_cases s with ⟨-, -, e⟩ | ⟨hn, e⟩ <;> rw [e]
  · simp
  · exact fun hr => hn ⟨hr, h⟩

/-- A step that leaves the halt flag set ends the run: by its halt check, or by the fault it raised. -/
theorem step_status_of_halt {s t : State} (h : step s = .next t) (ht : t.halt = true) : t.status ≠ .running := by
  obtain ⟨-, ⟨-, rfl⟩ | ⟨w, u, -, rfl, -⟩⟩ := step_next_cases h
  · simp
  · exact haltCheck_status_of_halt (by simpa using ht)

/-! ## What an instruction reads -/

/-- The two answers of `i` in `s` and in `s` with `v` in register `r`: the same state if `i` completes and writes `r`,
the same but for `v` in `r` if it does not write it or stops with a fault, and the same reason if there is no next
state. -/
inductive SameButReg (i : Instr) (s : State) (r : RegNum) (v : Word) : Result → Result → Prop
  | overwritten (t : State) (hr : t.status = .running) (hd : r ∈ destRegs i s) : SameButReg i s r v (.next t) (.next t)
  | kept (t : State) (hd : t.status = .running → r ∉ destRegs i s) :
      SameButReg i s r v (.next t) (.next (t.setReg r v))
  | noStep (f : Fault) : SameButReg i s r v (.fault f) (.fault f)

theorem setReg_branch (s : State) (r : RegNum) (v : Word) (taken : Bool) (imm : BitVec 16) :
    (s.setReg r v).branch taken imm = (s.branch taken imm).setReg r v := by
  cases taken <;> rfl

theorem setReg_memWrite4 (s : State) (r : RegNum) (v a w : Word) :
    (s.setReg r v).memWrite4 a w = (s.memWrite4 a w).map (·.setReg r v) := by
  unfold State.memWrite4
  rw [wordValid_congr (s := s) (t := s.setReg r v) rfl]
  cases s.wordValid a <;> rfl

section

variable {i : Instr} {s : State} {r : RegNum} {v : Word}

/-- A fault writes no register. -/
theorem SameButReg.raise (u : State) (kind : FaultKind) (info : Word) :
    SameButReg i s r v (.next (u.raise kind info)) (.next ((u.setReg r v).raise kind info)) :=
  .kept (u.raise kind info) fun h => by simp at h

/-- A value that is the same in both states, written to the one destination: the other value is lost exactly if it was
there. -/
theorem SameButReg.register {u : State} (hu : u.status = .running) {d : RegNum} (hd : destRegs i s = [d])
    (w p : Word) :
    SameButReg i s r v (.next ((u.setReg d w).setPc p)) (.next (((u.setReg r v).setReg d w).setPc p)) := by
  by_cases h : r = d
  · subst h
    rw [setReg_same]
    exact .overwritten _ hu (by simp [hd])
  · rw [setReg_comm _ _ _ h]
    exact .kept ((u.setReg d w).setPc p) fun _ => by simpa [hd] using h

/-- A computation from one register. -/
theorem SameButReg.unary (hs : s.status = .running) {d a : RegNum} (ha : r ∉ [a]) (hd : destRegs i s = [d])
    (f : Word → Word) :
    SameButReg i s r v (.next (s.finish d (f (s.reg a))))
      (.next ((s.setReg r v).finish d (f ((s.setReg r v).reg a)))) := by
  rw [State.reg_setReg_of_ne s (by simpa [eq_comm] using ha) v]
  exact .register hs hd _ _

/-- A computation from two registers. -/
theorem SameButReg.binary (hs : s.status = .running) {d a b : RegNum} (hab : r ∉ [a, b]) (hd : destRegs i s = [d])
    (f : Word → Word → Word) :
    SameButReg i s r v (.next (s.finish d (f (s.reg a) (s.reg b))))
      (.next ((s.setReg r v).finish d (f ((s.setReg r v).reg a) ((s.setReg r v).reg b)))) := by
  obtain ⟨ha, hb⟩ : r ≠ a ∧ r ≠ b := by simpa using hab
  rw [State.reg_setReg_of_ne s ha.symm v, State.reg_setReg_of_ne s hb.symm v]
  exact .register hs hd _ _

/-- A branch on two registers. -/
theorem SameButReg.branch {a b : RegNum} (hab : r ∉ [a, b]) (hd : destRegs i s = []) (taken : Word → Word → Bool)
    (imm : BitVec 16) :
    SameButReg i s r v (.next (s.branch (taken (s.reg a) (s.reg b)) imm))
      (.next ((s.setReg r v).branch (taken ((s.setReg r v).reg a) ((s.setReg r v).reg b)) imm)) := by
  obtain ⟨ha, hb⟩ : r ≠ a ∧ r ≠ b := by simpa using hab
  rw [State.reg_setReg_of_ne s ha.symm v, State.reg_setReg_of_ne s hb.symm v, setReg_branch]
  exact .kept _ fun _ => by simp [hd]

theorem effectiveAddress_setReg_of_ne {rs : RegNum} (h : rs ≠ r) (imm : BitVec 16) :
    (s.setReg r v).effectiveAddress rs imm = s.effectiveAddress rs imm := by
  rw [State.effectiveAddress, State.reg_setReg_of_ne s h, ← State.effectiveAddress]

theorem execSlti_sameButReg (hs : s.status = .running) {rt rs : RegNum} {imm : BitVec 16} (h : r ∉ [rs]) :
    SameButReg (.slti rt rs imm) s r v (execSlti rt rs imm s) (execSlti rt rs imm (s.setReg r v)) := by
  unfold execSlti
  split
  · exact .kept s.advance fun _ => by simp [destRegs, *]
  · exact .unary hs h (by simp [destRegs, *]) fun x => truthWord (lessSigned x (sext32 imm))

theorem execLw_sameButReg (hs : s.status = .running) {rt rs : RegNum} {imm : BitVec 16} (h : r ∉ [rs]) :
    SameButReg (.lw rt rs imm) s r v (execLw rt rs imm s) (execLw rt rs imm (s.setReg r v)) := by
  unfold execLw
  rw [effectiveAddress_setReg_of_ne (by simpa [eq_comm] using h), memRead4_congr (s := s) (t := s.setReg r v) rfl rfl]
  cases s.memRead4 (s.effectiveAddress rs imm) with
  | some w => exact .register hs rfl w _
  | none => exact .raise s _ _

theorem execSw_sameButReg {rt rs : RegNum} {imm : BitVec 16} (h : r ∉ [rs, rt]) :
    SameButReg (.sw rt rs imm) s r v (execSw rt rs imm s) (execSw rt rs imm (s.setReg r v)) := by
  obtain ⟨hrs, hrt⟩ : r ≠ rs ∧ r ≠ rt := by simpa using h
  unfold execSw
  rw [effectiveAddress_setReg_of_ne hrs.symm, State.reg_setReg_of_ne s hrt.symm, setReg_memWrite4]
  cases s.memWrite4 (s.effectiveAddress rs imm) (s.reg rt) with
  | some t => exact .kept t.advance fun _ => by simp [destRegs]
  | none => exact .raise s _ _

/-! ### The services -/

/-- `syscall` reads the selector always, and `x[4]` in services 1, 4 and 11. -/
theorem not_mem_sourceRegs_syscall (h : r ∉ sourceRegs .syscall s) :
    RegNum.v0 ≠ r ∧ ((s.reg .v0).toNat = 1 ∨ (s.reg .v0).toNat = 4 ∨ (s.reg .v0).toNat = 11 → RegNum.a0 ≠ r) := by
  by_cases hv : (s.reg .v0).toNat = 1 ∨ (s.reg .v0).toNat = 4 ∨ (s.reg .v0).toNat = 11
  · obtain ⟨h2, h4⟩ : r ≠ .v0 ∧ r ≠ .a0 := by simpa [sourceRegs, hv] using h
    exact ⟨h2.symm, fun _ => h4.symm⟩
  · have h2 : r ≠ .v0 := by simpa [sourceRegs, hv] using h
    exact ⟨h2.symm, fun hv' => absurd hv' hv⟩

/-- Only service 5 writes a register. -/
theorem SameButReg.service (t : State) (hv : (s.reg .v0).toNat ≠ 5) :
    SameButReg .syscall s r v (.next t) (.next (t.setReg r v)) :=
  .kept t fun _ => by simp [destRegs, hv]

theorem servicePrintString_sameButReg (hv : (s.reg .v0).toNat = 4) (ha : RegNum.a0 ≠ r) :
    SameButReg .syscall s r v (servicePrintString s) (servicePrintString (s.setReg r v)) := by
  unfold servicePrintString
  rw [State.reg_setReg_of_ne s ha, scanString_congr (s := s) (t := s.setReg r v) rfl rfl]
  cases s.scanString (s.reg .a0) with
  | terminated bytes => exact .service (s.out bytes).advance (by omega)
  | unbacked bytes a => exact .raise (s.out bytes) _ _
  | endless => exact .noStep _

theorem serviceReadInt_sameButReg (hs : s.status = .running) (hv : (s.reg .v0).toNat = 5) :
    SameButReg .syscall s r v (serviceReadInt s) (serviceReadInt (s.setReg r v)) := by
  unfold serviceReadInt
  rw [State.setReg_params, State.setReg_cin]
  cases readInt s.params.inEof s.cin with
  | some p => exact .register (u := { s with cin := p.2 }) hs (by simp [destRegs, hv]) p.1 _
  | none => exact .noStep _

theorem execSyscall_sameButReg (hs : s.status = .running) (h : r ∉ sourceRegs .syscall s) :
    SameButReg .syscall s r v (execSyscall s) (execSyscall (s.setReg r v)) := by
  obtain ⟨hv0, ha0⟩ := not_mem_sourceRegs_syscall h
  unfold execSyscall
  rw [State.reg_setReg_of_ne s hv0]
  split
  case h_1 hv =>
    unfold servicePrintInt
    rw [State.reg_setReg_of_ne s (ha0 (by omega))]
    exact .service (s.out _).advance (by omega)
  case h_2 hv => exact servicePrintString_sameButReg hv (ha0 (by omega))
  case h_3 hv => exact serviceReadInt_sameButReg hs hv
  case h_4 hv => exact .service (s := s) { s with halt := true }.advance (by omega)
  case h_5 hv =>
    unfold servicePrintCharacter
    rw [State.reg_setReg_of_ne s (ha0 (by omega))]
    exact .service (s.out _).advance (by omega)
  case h_6 => exact .raise s _ _

/-- A register that an instruction does not read is passed through, or overwritten. -/
theorem exec_sameButReg (hs : s.status = .running) (h : r ∉ sourceRegs i s) :
    SameButReg i s r v (exec i s) (exec i (s.setReg r v)) := by
  cases i with
  | syscall => exact execSyscall_sameButReg hs h
  | lw rt rs imm => exact execLw_sameButReg hs h
  | sw rt rs imm => exact execSw_sameButReg h
  | slti rt rs imm => exact execSlti_sameButReg hs h
  | beq rs rt imm => exact .branch h rfl (· == ·) imm
  | bne rs rt imm => exact .branch h rfl (· != ·) imm
  | jr rs =>
    have e : (s.setReg r v).reg rs = s.reg rs := State.reg_setReg_of_ne s (by simpa [sourceRegs, eq_comm] using h) v
    simp only [exec, execJr, e]
    exact .kept (s.setPc (s.reg rs)) fun _ => by simp [destRegs]
  | j target => exact .kept (s.setPc _) fun _ => by simp [destRegs]
  | jal target => exact .register hs rfl _ _
  | lui rt imm => exact .register hs rfl _ _
  | sll rd rt shamt => exact .unary hs h rfl (· <<< shamt)
  | addi rt rs imm => exact .unary hs h rfl (· + sext32 imm)
  | addiu rt rs imm => exact .unary hs h rfl (· + sext32 imm)
  | ori rt rs imm => exact .unary hs h rfl (· ||| zext32 imm)
  | add rd rs rt => exact .binary hs h rfl (· + ·)
  | addu rd rs rt => exact .binary hs h rfl (· + ·)
  | sub rd rs rt => exact .binary hs h rfl (· - ·)
  | or rd rs rt => exact .binary hs h rfl (· ||| ·)
  | slt rd rs rt => exact .binary hs h rfl fun x y => truthWord (lessSigned x y)
  | mul rd rs rt => exact .binary hs h rfl fun x y => BitVec.ofInt 32 (x.toInt * y.toInt)

end

/-! ## The obligations -/

/-- Settles O52: the cases of `SameButReg` are the three answers the statement speaks of. -/
theorem onlySourcesMatter : Obligations.OnlySourcesMatter := by
  unfold Obligations.OnlySourcesMatter
  intro i s r v hs hr
  have rel := exec_sameButReg (v := v) hs hr
  generalize exec i (s.setReg r v) = answer at rel ⊢
  refine ⟨fun t e ht => ?_, fun t e ht => ?_, fun f e => ?_⟩ <;> rw [e] at rel
  · cases rel with
    | overwritten _ _ hd => rw [if_pos hd]
    | kept _ hd => rw [if_neg (hd ht)]
  · cases rel with
    | overwritten _ hr _ => exact absurd hr ht
    | kept => rfl
  · cases rel with
    | noStep => rfl

/-- Settles O50: a step sets the flag or keeps it by `RunsExit`, and one that leaves it set ends the run. -/
theorem onlyExitSetsTheHaltFlag : Obligations.OnlyExitSetsTheHaltFlag := by
  unfold Obligations.OnlyExitSetsTheHaltFlag
  refine ⟨fun s t h => ?_, fun s t h ht => ⟨_, step_of_ended (step_status_of_halt h ht)⟩⟩
  show (s.halt = true → t.halt = true) ∧ (s.halt = false → (t.halt = true ↔ RunsExit s))
  rcases step_halt_cases h with ⟨hx, ht⟩ | ⟨hx, ht⟩
  · simp [hx, ht]
  · rw [ht]
    simp +contextual [hx]

/-- Settles O51: the instruction's effect keeps every register that is no destination, and so does the halt check. -/
theorem onlyDestinationsChange : Obligations.OnlyDestinationsChange := by
  unfold Obligations.OnlyDestinationsChange
  intro s t r h hne
  obtain ⟨w, i, u, hf, hd, e, rfl⟩ | ⟨-, hregs, -⟩ := step_effect h
  · refine ⟨w, i, hf, hd, ?_⟩
    by_contra hr
    exact hne (by rw [haltCheck_reg, e.reg_of_not_dest hr])
  · exact absurd (hregs r) hne

/-- Settles O55: no effect of an instruction touches HI or LO, nor does the halt check. -/
theorem hiAndLoNeverChange : Obligations.HiAndLoNeverChange := by
  unfold Obligations.HiAndLoNeverChange
  intro s t h
  obtain ⟨w, i, u, -, -, e, rfl⟩ | ⟨-, -, hhl, -⟩ := step_effect h
  · obtain ⟨hhi, hlo⟩ := e.sameHiLo
    simp [hhi, hlo]
  · exact hhl

/-- Settles O45: the cycle exists only while the status is `running`. -/
theorem endedRunsHaveNoStep : Obligations.EndedRunsHaveNoStep := by
  unfold Obligations.EndedRunsHaveNoStep
  exact fun _ h => step_of_ended h

end Sys2Proof.Machine
end

section
/-! PROOFS, 20_memory.md: the bytes of a stored and of a loaded word (R34, R35), a store that the next step fetches
(R47) and what changes memory (R50). The word port is read byte by byte here; what a step writes to memory is read off
`Effect`. -/

namespace Sys2Proof.Machine

open Sys2Proof

/-! ## The word port, byte by byte -/

theorem byteValid_of_wordValid {s : State} {a : Word} (h : s.wordValid a = true) {k : Nat} (hk : k < 4) :
    s.byteValid (a + BitVec.ofNat 32 k) = true := by
  by_contra hb
  have hn : s.memRead1 (a + BitVec.ofNat 32 k) = none := (memRead1_eq_none s _).2 (by simpa using hb)
  have hf : s.wordValid a = false := (wordValid_eq_false_iff s a).2 (.inr ⟨k, hk, hn⟩)
  simp [h] at hf

theorem memRead1_putWord_self {s : State} {a : Word} (h : s.wordValid a = true) (v : Word) {k : Nat} (hk : k < 4) :
    (s.putWord a v).memRead1 (a + BitVec.ofNat 32 k) = some (byteOfWord v k) :=
  (memRead1_eq_some _ _ _).2 ⟨byteValid_of_wordValid (s := s.putWord a v) h hk, byteAt_putWord_self s a v hk⟩

theorem memRead1_putWord_other (s : State) {a v c : Word} (h : ∀ k < 4, c ≠ a + BitVec.ofNat 32 k) :
    (s.putWord a v).memRead1 c = s.memRead1 c := by
  simp only [State.memRead1, byteValid_congr (s := s) (t := s.putWord a v) rfl, byteAt_putWord_other s a v c h]

/-- The other direction of `wordOfBytes_byteOfWord`. -/
theorem byteOfWord_wordOfBytes (b : Nat → Byte) {k : Nat} (hk : k < 4) :
    byteOfWord (wordOfBytes (b 0) (b 1) (b 2) (b 3)) k = b k := by
  apply BitVec.eq_of_toNat_eq
  rw [toNat_byteOfWord, toNat_wordOfBytes]
  have h0 := (b 0).isLt
  have h1 := (b 1).isLt
  have h2 := (b 2).isLt
  interval_cases k <;> omega

theorem memRead1_of_memRead4 {s : State} {a v : Word} (h : s.memRead4 a = some v) {k : Nat} (hk : k < 4) :
    s.memRead1 (a + BitVec.ofNat 32 k) = some (byteOfWord v k) := by
  have hv : s.wordValid a = true := by
    by_contra hn
    simp [(memRead4_eq_none s a).2 (by simpa using hn)] at h
  have hbytes := byteOfWord_wordOfBytes (fun j => s.byteAt (a + BitVec.ofNat 32 j)) hk
  rw [memRead4_of_valid hv, Option.some.injEq] at h
  simp only [BitVec.add_zero, h] at hbytes
  exact (memRead1_eq_some _ _ _).2 ⟨byteValid_of_wordValid hv hk, hbytes.symm⟩

/-! ## What an instruction writes to memory -/

/-- A byte that the instruction does not store to reads as before: only a completed `sw` writes memory. -/
theorem Effect.memRead1_of_not_stored {i : Instr} {s t : State} (e : Effect i s t) {a : Word}
    (h : ∀ rt rs imm, i = .sw rt rs imm → ∀ k < 4, a ≠ s.effectiveAddress rs imm + BitVec.ofNat 32 k) :
    t.memRead1 a = s.memRead1 a := by
  cases e with
  | store rt rs imm hi _ => exact memRead1_putWord_other s (h rt rs imm hi)
  | register | pcOnly | output | input | exit | badAddress | badByte | badSelector => exact memRead1_congr rfl rfl a

/-- An `sw` that leaves the run running had a valid address and stored its word there. -/
theorem execSw_completed {rt rs : RegNum} {imm : BitVec 16} {s t : State} (h : execSw rt rs imm s = .next t)
    (ht : t.status = .running) :
    s.wordValid (s.effectiveAddress rs imm) = true ∧
      t = (s.putWord (s.effectiveAddress rs imm) (s.reg rt)).advance := by
  cases hv : s.wordValid (s.effectiveAddress rs imm) with
  | true =>
    rw [execSw_valid rfl hv] at h
    cases h
    exact ⟨rfl, rfl⟩
  | false =>
    rw [execSw_invalid rfl hv] at h
    cases h
    simp at ht

/-! ## The obligations -/

/-- Settles O27: both the byte after the store and the byte before the load are `byteOfWord v k`. -/
theorem byteOfAStoredWord : Obligations.ByteOfAStoredWord := by
  unfold Obligations.ByteOfAStoredWord
  refine ⟨fun s t a v k h hk => ?_, fun s a v k h hk => ?_⟩
  · obtain ⟨hv, rfl⟩ := memWrite4_eq_some h
    exact ⟨_, memRead1_putWord_self hv v hk, toNat_byteOfWord v k⟩
  · exact ⟨_, memRead1_of_memRead4 h hk, toNat_byteOfWord v k⟩

/-- Settles O28: the store went to the PC of the next state, and is read back there. -/
theorem nextFetchSeesTheStore : Obligations.NextFetchSeesTheStore := by
  unfold Obligations.NextFetchSeesTheStore
  intro rt rs imm s t h ht ha
  obtain ⟨hv, rfl⟩ := execSw_completed h ht
  rw [ha] at hv ht ⊢
  have hf : (s.putWord (s.pc + 4#32) (s.reg rt)).advance.fetch = some (s.reg rt) := memRead4_putWord_self hv _
  exact ⟨hf, step_of_fetch ht hf⟩

/-- Settles O49: a step that runs no instruction keeps every byte, and an instruction keeps those it does not store
to. -/
theorem onlyStoresChangeMemory : Obligations.OnlyStoresChangeMemory := by
  unfold Obligations.OnlyStoresChangeMemory
  intro s t a h hne
  obtain ⟨-, ⟨-, rfl⟩ | ⟨w, u, hf, rfl, hu⟩⟩ := step_next_cases h
  · exact absurd (memRead1_congr rfl rfl a) hne
  · rw [haltCheck_memRead1] at hne
    obtain ⟨i, hd, hx⟩ | ⟨-, rfl⟩ | ⟨-, rfl⟩ := hu
    · by_contra hno
      refine hne ((exec_effect hx).memRead1_of_not_stored fun rt rs imm hi k hk ha => hno ?_)
      exact ⟨w, rt, rs, imm, hf, hi ▸ hd, k, hk, ha⟩
    · exact absurd (memRead1_congr rfl rfl a) hne
    · exact absurd (memRead1_congr rfl rfl a) hne

end Sys2Proof.Machine
end

section
/-! PROOFS, 30_encoding.md: the decoder and the encoder are inverse to each other but for unused bits (R52 to R58,
R66), the classes of word (R60, R61, R65) and their steps (R59 to R61). The round trips turn on `isWordOf_encode` and
`isWordOf_iff`: a word decodes to an instruction exactly if its used bits are those of the instruction's encoding. -/

namespace Sys2Proof

open Sys2Proof.Machine

/-! ## The operands of an encoding -/

theorem regs_encodeR (op : BitVec 6) (rs rt rd : RegNum) (sh : BitVec 5) (fn : BitVec 6) :
    rsOf (encodeR op rs rt rd sh fn) = rs ∧ rtOf (encodeR op rs rt rd sh fn) = rt ∧
      rdOf (encodeR op rs rt rd sh fn) = rd := by
  obtain ⟨-, hrs, hrt, hrd, -⟩ := bits_encodeR op rs rt rd sh fn
  exact ⟨rsOf_eq hrs, rtOf_eq hrt, rdOf_eq hrd⟩

theorem operands_encodeI (op : BitVec 6) (rs rt : RegNum) (imm : BitVec 16) :
    rsOf (encodeI op rs rt imm) = rs ∧ rtOf (encodeI op rs rt imm) = rt ∧ immOf (encodeI op rs rt imm) = imm := by
  obtain ⟨-, hrs, hrt, himm⟩ := bits_encodeI op rs rt imm
  exact ⟨rsOf_eq hrs, rtOf_eq hrt, immOf_eq himm⟩

theorem targetOf_encodeJ (op : BitVec 6) (target : BitVec 26) : targetOf (encodeJ op target) = target :=
  targetOf_eq (bits_encodeJ op target).2

/-- The word of a well-formed instruction is a word of it: by the format of its encoding. -/
theorem isWordOf_encode {i : Instr} (h : i.wf = true) : IsWordOf (encode i) i := by
  cases i with
  | sll rd rt shamt =>
    have hs : shamt < 32 := of_decide_eq_true h
    simp [encode, IsWordOf, bits_encodeR, regs_encodeR, Nat.mod_eq_of_lt hs]
  | jr | syscall | add | addu | sub | or | slt | mul => simp [encode, IsWordOf, bits_encodeR, regs_encodeR]
  | j | jal => simp [encode, IsWordOf, bits_encodeJ, targetOf_encodeJ]
  | beq | bne | addi | addiu | slti | ori | lui | lw | sw => simp [encode, IsWordOf, bits_encodeI, operands_encodeI]

/-! ## An encoding determines its fields -/

theorem encodeR_inj {op op' : BitVec 6} {rs rs' rt rt' rd rd' : RegNum} {sh sh' : BitVec 5} {fn fn' : BitVec 6} :
    encodeR op rs rt rd sh fn = encodeR op' rs' rt' rd' sh' fn' ↔
      op = op' ∧ rs = rs' ∧ rt = rt' ∧ rd = rd' ∧ sh = sh' ∧ fn = fn' := by
  refine ⟨fun h => ?_, by rintro ⟨rfl, rfl, rfl, rfl, rfl, rfl⟩; rfl⟩
  have hb := bits_encodeR op rs rt rd sh fn
  rw [h] at hb
  simpa [bits_encodeR, BitVec.toNat_eq, Fin.ext_iff, eq_comm] using hb

theorem encodeI_inj {op op' : BitVec 6} {rs rs' rt rt' : RegNum} {imm imm' : BitVec 16} :
    encodeI op rs rt imm = encodeI op' rs' rt' imm' ↔ op = op' ∧ rs = rs' ∧ rt = rt' ∧ imm = imm' := by
  refine ⟨fun h => ?_, by rintro ⟨rfl, rfl, rfl, rfl⟩; rfl⟩
  have hb := bits_encodeI op rs rt imm
  rw [h] at hb
  simpa [bits_encodeI, BitVec.toNat_eq, Fin.ext_iff, eq_comm] using hb

theorem encodeJ_inj {op op' : BitVec 6} {target target' : BitVec 26} :
    encodeJ op target = encodeJ op' target' ↔ op = op' ∧ target = target' := by
  refine ⟨fun h => ?_, by rintro ⟨rfl, rfl⟩; rfl⟩
  have hb := bits_encodeJ op target
  rw [h] at hb
  simpa [bits_encodeJ, BitVec.toNat_eq, eq_comm] using hb

/-! ## The used bits of a word -/

/-- The mask of the opcode, the function code, and each of the register and shift fields whose flag is set (R52). -/
def fieldMask (rs rt rd sh : Bool) : Word :=
  encodeR 63#6 (if rs then 31 else 0) (if rt then 31 else 0) (if rd then 31 else 0) (if sh then 31#5 else 0#5) 63#6

theorem regOfField_and_ones_or_zero (r : RegNum) (keep : Bool) :
    regOfField (fieldOfReg r &&& fieldOfReg (if keep then 31 else 0)) = if keep then r else 0 := by
  revert r keep; decide

theorem and_63 (v : BitVec 6) : v &&& 63#6 = v := BitVec.and_allOnes
theorem and_0xFFFFFFFF (w : Word) : w &&& 0xFFFFFFFF#32 = w := BitVec.and_allOnes

theorem and_ones_or_zero (f : BitVec 5) (keep : Bool) :
    f &&& (if keep then 31#5 else 0#5) = if keep then f else 0#5 := by
  revert f keep; decide

theorem and_fieldMask (w : Word) (rs rt rd sh : Bool) :
    w &&& fieldMask rs rt rd sh =
      encodeR (opcodeOf w) (if rs then rsOf w else 0) (if rt then rtOf w else 0) (if rd then rdOf w else 0)
        (if sh then w.extractLsb' 6 5 else 0#5) (functOf w) := by
  calc w &&& fieldMask rs rt rd sh
      = encodeR (opcodeOf w) (rsOf w) (rtOf w) (rdOf w) (w.extractLsb' 6 5) (functOf w) &&& fieldMask rs rt rd sh := by
        rw [encodeR_fields]
    _ = _ := by
        rw [fieldMask, encodeR_and, and_63, and_63, and_ones_or_zero]
        simp only [regOfField_and_ones_or_zero]

/-- The bits that `lui` uses: all but the register field `rs`. -/
theorem and_fieldMask_of_lui (w : Word) :
    w &&& fieldMask false true true true = encodeI (opcodeOf w) 0 (rtOf w) (immOf w) := by
  rw [and_fieldMask]
  apply BitVec.eq_of_toNat_eq
  simp only [Bool.false_eq_true, if_false, if_true, toNat_encodeR, toNat_encodeI, toNat_opcodeOf, toNat_functOf,
    toNat_immOf, toNat_extract, val_rtOf, val_rdOf, bitsOf]
  omega

theorem eq_opcodeOf_iff {op : BitVec 6} {w : Word} : op = opcodeOf w ↔ bitsOf w 26 6 = op.toNat := by
  rw [← BitVec.toNat_inj, toNat_opcodeOf, eq_comm]

theorem eq_functOf_iff {fn : BitVec 6} {w : Word} : fn = functOf w ↔ bitsOf w 0 6 = fn.toNat := by
  rw [← BitVec.toNat_inj, toNat_functOf, eq_comm]

theorem encodeR_eq_and_fieldMask_iff {op fn : BitVec 6} {rs rt rd : RegNum} {sh : BitVec 5} {w : Word}
    {useRs useRt useRd useSh : Bool} :
    encodeR op rs rt rd sh fn = w &&& fieldMask useRs useRt useRd useSh ↔
      bitsOf w 26 6 = op.toNat ∧ bitsOf w 0 6 = fn.toNat ∧ rd = (if useRd then rdOf w else 0) ∧
        rs = (if useRs then rsOf w else 0) ∧ rt = (if useRt then rtOf w else 0) ∧
        sh = (if useSh then w.extractLsb' 6 5 else 0#5) := by
  rw [and_fieldMask, encodeR_inj, eq_opcodeOf_iff, eq_functOf_iff]
  tauto

theorem encodeI_eq_iff {op : BitVec 6} {rs rt : RegNum} {imm : BitVec 16} {w : Word} :
    encodeI op rs rt imm = w ↔ bitsOf w 26 6 = op.toNat ∧ rs = rsOf w ∧ rt = rtOf w ∧ imm = immOf w := by
  rw [← eq_opcodeOf_iff, ← encodeI_inj, encodeI_fields]

theorem encodeJ_eq_iff {op : BitVec 6} {target : BitVec 26} {w : Word} :
    encodeJ op target = w ↔ bitsOf w 26 6 = op.toNat ∧ target = targetOf w := by
  rw [← eq_opcodeOf_iff, ← encodeJ_inj, encodeJ_fields]

theorem shamt_eq_iff {shamt : Nat} {w : Word} :
    shamt = bitsOf w 6 5 ↔ shamt < 32 ∧ BitVec.ofNat 5 shamt = w.extractLsb' 6 5 := by
  have hw : bitsOf w 6 5 < 32 := Nat.mod_lt _ (by decide)
  rw [← BitVec.toNat_inj, toNat_extract, BitVec.toNat_ofNat]
  omega

/-- The masks of the opcode table that leave fields out: of `sll` and `lui`, of `jr`, of `syscall`, and of the
instructions on three registers. -/
theorem used_eq_fieldMask :
    0xFC1FFFFF#32 = fieldMask false true true true ∧ 0xFFE0003F#32 = fieldMask true false false false ∧
      0xFC00003F#32 = fieldMask false false false false ∧ 0xFFFFF83F#32 = fieldMask true true true false := by
  decide

/-- The words of an instruction are those whose used bits are the bits of its encoding (R56, R66): by the format of the
encoding, whose fields are all used but for those its mask leaves out. -/
theorem isWordOf_iff {w : Word} {i : Instr} : IsWordOf w i ↔ i.wf = true ∧ encode i = w &&& i.row.used := by
  obtain ⟨hsll, hjr, hsyscall, hreg⟩ := used_eq_fieldMask
  cases i with
  | sll =>
    simp [IsWordOf, Instr.wf, encode, Instr.row, hsll, encodeR_eq_and_fieldMask_iff, shamt_eq_iff, and_left_comm]
  | jr | syscall | add | addu | sub | or | slt | mul =>
    simp [IsWordOf, Instr.wf, encode, Instr.row, hjr, hsyscall, hreg, encodeR_eq_and_fieldMask_iff]
  | j | jal => simp [IsWordOf, Instr.wf, encode, Instr.row, and_0xFFFFFFFF, encodeJ_eq_iff]
  | lui =>
    simp [IsWordOf, Instr.wf, encode, Instr.row, hsll, and_fieldMask_of_lui, encodeI_inj, eq_opcodeOf_iff]
  | beq | bne | addi | addiu | slti | ori | lw | sw =>
    simp [IsWordOf, Instr.wf, encode, Instr.row, and_0xFFFFFFFF, encodeI_eq_iff]

/-- The decoder is the inverse of the encoder up to unused bits: both round trips of a word are read off this. -/
theorem decode_eq_instr_iff_encode {w : Word} {i : Instr} :
    decode w = .instr i ↔ i.wf = true ∧ encode i = w &&& i.row.used := decode_eq_instr.trans isWordOf_iff

/-! ## The opcode table -/

theorem row_mem_opcodeTable (i : Instr) : i.row ∈ opcodeTable := by
  cases i <;> simp [opcodeTable, tableInstrs, Instr.row]

theorem encode_and_mask (i : Instr) : encode i &&& i.row.mask = i.row.pattern := by
  cases i with
  | sll | jr | syscall | add | addu | sub | or | slt | mul => exact encodeR_row _ _ _ _ _ _
  | j | jal => exact encodeJ_row _ _
  | beq | bne | addi | addiu | slti | ori | lui | lw | sw => exact encodeI_row _ _ _ _

/-- The bits that select an instruction are bits it uses. -/
theorem used_and_mask {r : TableRow} (hr : r ∈ opcodeTable) : r.used &&& r.mask = r.mask := by
  revert r; decide

theorem and_mask_of_decode {w : Word} {i : Instr} (h : decode w = .instr i) : w &&& i.row.mask = i.row.pattern := by
  obtain ⟨-, hused⟩ := decode_eq_instr_iff_encode.1 h
  calc w &&& i.row.mask
      = (w &&& i.row.used) &&& i.row.mask := by rw [BitVec.and_assoc, used_and_mask (row_mem_opcodeTable i)]
    _ = i.row.pattern := by rw [← hused, encode_and_mask]

theorem opcodeOf_and (w m : Word) : opcodeOf (w &&& m) = opcodeOf w &&& opcodeOf m := BitVec.extractLsb'_and ..
theorem functOf_and (w m : Word) : functOf (w &&& m) = functOf w &&& functOf m := BitVec.extractLsb'_and ..

/-! ## The classes of word -/

/-- The opcodes and function codes of the 20 instructions (R55, R63, R64). -/
abbrev IsInstrCode (op fn : Nat) : Prop :=
  (op ∈ implementedOpcodes ∧ op ≠ 0x00 ∧ op ≠ 0x1C) ∨ (op = 0x00 ∧ fn ∈ implementedFuncts) ∨ (op = 0x1C ∧ fn = 0x02)

/-- The function codes outside the map, under the two opcodes that have one (R61). -/
abbrev IsUnmatchedCode (op fn : Nat) : Prop :=
  (op = 0x00 ∧ fn ∉ implementedFuncts) ∨ (op = 0x1C ∧ fn ≠ 0x02)

theorem IsInstrCode.implemented {op fn : Nat} (h : IsInstrCode op fn) : op ∈ implementedOpcodes := by
  rcases h with ⟨h, -⟩ | ⟨rfl, -⟩ | ⟨rfl, -⟩
  · exact h
  · decide
  · decide

theorem IsUnmatchedCode.implemented {op fn : Nat} (h : IsUnmatchedCode op fn) : op ∈ implementedOpcodes := by
  rcases h with ⟨rfl, -⟩ | ⟨rfl, -⟩ <;> decide

theorem IsUnmatchedCode.not_instrCode {op fn : Nat} (h : IsUnmatchedCode op fn) : ¬IsInstrCode op fn := by
  rcases h with ⟨rfl, h⟩ | ⟨rfl, h⟩ <;> simp [IsInstrCode, h]

theorem IsWordOf.instrCode {w : Word} {i : Instr} (h : IsWordOf w i) : IsInstrCode (bitsOf w 26 6) (bitsOf w 0 6) := by
  cases i <;> simp only [IsWordOf] at h <;> simp [h, IsInstrCode, implementedOpcodes, implementedFuncts]

theorem decode_eq_unimplemented_iff {w : Word} :
    decode w = .unimplementedOpcode ↔ bitsOf w 26 6 ∉ implementedOpcodes := by
  obtain ⟨i, hd, hw⟩ | ⟨hd, hc⟩ | ⟨hd, hc⟩ := decode_cases w
  · simp [hd, hw.instrCode.implemented]
  · simp [hd, IsUnmatchedCode.implemented hc]
  · simp [hd, hc]

theorem decode_eq_unmatched_iff {w : Word} :
    decode w = .unmatchedFunction ↔ IsUnmatchedCode (bitsOf w 26 6) (bitsOf w 0 6) := by
  obtain ⟨i, hd, hw⟩ | ⟨hd, hc⟩ | ⟨hd, hc⟩ := decode_cases w
  · exact iff_of_false (by simp [hd]) fun h => h.not_instrCode hw.instrCode
  · exact iff_of_true hd hc
  · exact iff_of_false (by simp [hd]) fun h => hc h.implemented

theorem decode_eq_some_instr_iff {w : Word} :
    (∃ i, decode w = .instr i) ↔ IsInstrCode (bitsOf w 26 6) (bitsOf w 0 6) := by
  obtain ⟨i, hd, hw⟩ | ⟨hd, hc⟩ | ⟨hd, hc⟩ := decode_cases w
  · exact iff_of_true ⟨i, hd⟩ hw.instrCode
  · exact iff_of_false (by simp [hd]) (IsUnmatchedCode.not_instrCode hc)
  · exact iff_of_false (by simp [hd]) fun h => hc h.implemented

/-- Each row's pattern names an instruction, and its mask keeps the opcode, and the function code under the two opcodes
that have one (R56). -/
theorem row_selects {r : TableRow} (hr : r ∈ opcodeTable) :
    IsInstrCode (bitsOf r.pattern 26 6) (bitsOf r.pattern 0 6) ∧ opcodeOf r.mask = 63#6 ∧
      (bitsOf r.pattern 26 6 = 0x00 ∨ bitsOf r.pattern 26 6 = 0x1C → functOf r.mask = 63#6) := by
  revert r; decide

theorem instrCode_of_matches {w : Word} {r : TableRow} (hr : r ∈ opcodeTable) (h : w &&& r.mask = r.pattern) :
    IsInstrCode (bitsOf w 26 6) (bitsOf w 0 6) := by
  obtain ⟨hc, hop, hfn⟩ := row_selects hr
  have hw : bitsOf r.pattern 26 6 = bitsOf w 26 6 := by
    rw [← h, ← toNat_opcodeOf, opcodeOf_and, hop, and_63, toNat_opcodeOf]
  have hwf (hcat : bitsOf r.pattern 26 6 = 0x00 ∨ bitsOf r.pattern 26 6 = 0x1C) :
      bitsOf r.pattern 0 6 = bitsOf w 0 6 := by
    rw [← h, ← toNat_functOf, functOf_and, hfn hcat, and_63, toNat_functOf]
  rw [hw] at hc hwf
  rcases hc with hc | ⟨h0, hc⟩ | ⟨h1, hc⟩
  · exact .inl hc
  · exact .inr (.inl ⟨h0, hwf (.inl h0) ▸ hc⟩)
  · exact .inr (.inr ⟨h1, hwf (.inr h1) ▸ hc⟩)

/-- No word matches two rows. -/
theorem row_unique {w : Word} {r r' : TableRow} (hr : r ∈ opcodeTable) (hr' : r' ∈ opcodeTable)
    (h : w &&& r.mask = r.pattern) (h' : w &&& r'.mask = r'.pattern) : r = r' := by
  have agree : r.pattern &&& r'.mask = r'.pattern &&& r.mask := by
    rw [← h, ← h', BitVec.and_assoc, BitVec.and_assoc, BitVec.and_comm r.mask]
  have disjoint : ∀ r ∈ opcodeTable, ∀ r' ∈ opcodeTable, r.pattern &&& r'.mask = r'.pattern &&& r.mask → r = r' := by
    decide
  exact disjoint r hr r' hr' agree

end Sys2Proof

namespace Sys2Proof.Machine

open Sys2Proof

/-! ## A step on a word that is no instruction, and on the all-zero word -/

theorem step_of_unmatched {s : State} {w : Word} (hr : s.status = .running) (hh : s.halt = false)
    (hf : s.fetch = some w) (hd : decode w = .unmatchedFunction) : step s = .next s.advance := by
  rw [step_of_fetch hr hf, dispatch, hd]
  exact congrArg Host.Outcome.next (haltCheck_of_clear hh)

theorem step_of_unimplemented {s : State} {w : Word} (hr : s.status = .running) (hf : s.fetch = some w)
    (hd : decode w = .unimplementedOpcode) : step s = .next (s.raise .unimplementedOpcode w) := by
  rw [step_of_fetch hr hf, dispatch, hd]
  exact congrArg Host.Outcome.next (haltCheck_raise s _ w)

theorem step_of_sll {s : State} {w : Word} {rd rt : RegNum} {shamt : Nat} (hr : s.status = .running)
    (hh : s.halt = false) (hf : s.fetch = some w) (hd : decode w = .instr (.sll rd rt shamt)) :
    step s = .next (s.finish rd (s.reg rt <<< shamt)) := by
  rw [step_of_fetch hr hf, dispatch, hd]
  exact congrArg Host.Outcome.next (haltCheck_of_clear hh)

/-- `sll $0,$0,0` writes to register 0 what it holds. -/
theorem finish_zero_shift (s : State) : s.finish 0 (s.reg 0 <<< 0) = s.advance := by
  rw [BitVec.shiftLeft_zero, State.finish, setReg_self]

/-! ## The obligations -/

/-- Settles O2: the word of a well-formed instruction is a word of it. -/
theorem decodeOfEncodeIsTheInstruction : Obligations.DecodeOfEncodeIsTheInstruction := by
  unfold Obligations.DecodeOfEncodeIsTheInstruction
  exact fun _ h => decode_of_isWordOf (isWordOf_encode h)

/-- Settles O3: one direction of `decode_eq_instr_iff_encode`. -/
theorem encodeOfDecodeKeepsUsedBits : Obligations.EncodeOfDecodeKeepsUsedBits := by
  unfold Obligations.EncodeOfDecodeKeepsUsedBits
  exact fun _ _ h => decode_eq_instr_iff_encode.1 h

/-- Settles O5: `decode_eq_instr_iff_encode` there for the first word and back for the second. -/
theorem unusedFieldsAreIgnored : Obligations.UnusedFieldsAreIgnored := by
  unfold Obligations.UnusedFieldsAreIgnored
  intro w w' i h hu
  obtain ⟨hwf, hw⟩ := decode_eq_instr_iff_encode.1 h
  exact decode_eq_instr_iff_encode.2 ⟨hwf, hw.trans hu.symm⟩

/-- Settles O6: one lemma for each class of word. -/
theorem everyWordIsInOneClass : Obligations.EveryWordIsInOneClass := by
  unfold Obligations.EveryWordIsInOneClass
  exact fun _ => ⟨decode_eq_unimplemented_iff, decode_eq_unmatched_iff, decode_eq_some_instr_iff⟩

/-- Settles O4: a word that matches a row has the codes of an instruction, and matches only one row. -/
theorem decoderFollowsTheOpcodeTable : Obligations.DecoderFollowsTheOpcodeTable := by
  unfold Obligations.DecoderFollowsTheOpcodeTable
  refine ⟨rfl, fun w i h => ⟨row_mem_opcodeTable i, and_mask_of_decode h⟩, fun w r hr hm => ?_⟩
  obtain ⟨i, hi⟩ := decode_eq_some_instr_iff.2 (instrCode_of_matches hr hm)
  exact ⟨i, hi, row_unique (row_mem_opcodeTable i) hr (and_mask_of_decode hi) hm⟩

/-- Settles O42: the step is the sequential advance of the PC. -/
theorem unmatchedFunctionOnlyAdvances : Obligations.UnmatchedFunctionOnlyAdvances := by
  unfold Obligations.UnmatchedFunctionOnlyAdvances
  intro s w hr hh hf hc
  exact ⟨_, step_of_unmatched hr hh hf (decode_eq_unmatched_iff.2 hc), advances_advance s, advance_onlyPc s⟩

/-- Settles O43: the step raises the fault with the fetched word. -/
theorem unimplementedOpcodeIsFatal : Obligations.UnimplementedOpcodeIsFatal := by
  unfold Obligations.UnimplementedOpcodeIsFatal
  intro s w hr hf hc
  exact ⟨_, step_of_unimplemented hr hf (decode_eq_unimplemented_iff.2 hc), raises_raise s _ w⟩

/-- Settles O1: twelve closed words, by evaluation of the decoder. -/
theorem sampleWordsDecode : Obligations.SampleWordsDecode := by
  unfold Obligations.SampleWordsDecode
  decide

/-- Settles O41: the all-zero word is `sll $0,$0,0`, and every `sll` writes the shifted value and advances. -/
theorem zeroWordOnlyAdvances : Obligations.ZeroWordOnlyAdvances := by
  unfold Obligations.ZeroWordOnlyAdvances
  refine ⟨fun s hr hh hf => ?_, fun s => ?_, fun s w rt shamt hr hh hf hd => ?_⟩
  · have hstep := step_of_sll hr hh hf (by decide : decode 0x00000000#32 = .instr (.sll 0 0 0))
    rw [finish_zero_shift] at hstep
    exact ⟨_, hstep, advances_advance s, advance_onlyPc s⟩
  · exact ⟨_, congrArg Host.Outcome.next (finish_zero_shift s), advances_advance s, advance_onlyPc s⟩
  · refine ⟨_, step_of_sll hr hh hf hd, ?_, advances_advance _, finish_onlyRegister s 0 _⟩
    rw [State.reg_finish_self, BitVec.toNat_shiftLeft, Nat.shiftLeft_eq]

end Sys2Proof.Machine
end

section
/-! PROOFS, 40_cycle.md: the fetch check (R68), the halt check (R74) and the run-status state machine (R76). Before the
halt check a dispatched word leaves a running machine running or faulted; the halt check then halts the running one whose
flag is set. -/

namespace Sys2Proof.Machine

open Sys2Proof

/-! ## The fetch check and the halt check -/

theorem fetch_eq_none_iff (s : State) :
    s.fetch = none ↔ (s.pc.toNat % 4 ≠ 0 ∨ ∃ k < 4, s.memRead1 (s.pc + BitVec.ofNat 32 k) = none) :=
  (memRead4_eq_none s s.pc).trans (wordValid_eq_false_iff s s.pc)

theorem haltCheck_of_set {s : State} (hr : s.status = .running) (hh : s.halt = true) :
    s.haltCheck = { s.out s.dump with status := .halted } := if_pos ⟨hr, hh⟩

theorem haltCheck_of_not_set {s : State} (h : ¬(s.status = .running ∧ s.halt = true)) : s.haltCheck = s := if_neg h

/-! ## The run-status state machine -/

/-- The two statuses in which a dispatched word leaves a running machine, before the halt check. -/
def RunningOrFaulted (s : State) : Prop := s.status = .running ∨ s.status.isFaulted = true

/-- The three rows of R76 that a completed step ends in. -/
def EndsAStep (s : State) : Prop :=
  s.status = .running ∧ s.halt = false ∨ s.status = .halted ∧ s.halt = true ∨ s.status.isFaulted = true

theorem raise_isFaulted (s : State) (kind : FaultKind) (info : Word) : (s.raise kind info).status.isFaulted = true :=
  rfl

/-- An instruction keeps the status unless it raises a fault: no effect is `halted`, `exit` sets the flag alone. -/
theorem Effect.runningOrFaulted {i : Instr} {s t : State} (e : Effect i s t) (hr : s.status = .running) :
    RunningOrFaulted t := by
  cases e with
  | register | pcOnly | store | output | input | exit => exact .inl hr
  | badAddress | badByte | badSelector => exact .inr (raise_isFaulted _ _ _)

theorem RunningOrFaulted.haltCheck_endsAStep {s : State} (h : RunningOrFaulted s) : EndsAStep s.haltCheck := by
  rcases haltCheck_cases s with ⟨-, hh, e⟩ | ⟨hn, e⟩ <;> rw [e]
  · exact .inr (.inl ⟨rfl, hh⟩)
  · rcases h with hr | hf
    · exact .inl ⟨hr, by simpa [hr] using hn⟩
    · exact .inr (.inr hf)

/-! ## The obligations -/

/-- Settles O44: the condition is the failure of the fetch check, and then the step is the raise. -/
theorem badFetchIsFatal : Obligations.BadFetchIsFatal := by
  unfold Obligations.BadFetchIsFatal
  intro s hr hbad
  exact ⟨_, step_of_no_fetch hr ((fetch_eq_none_iff s).2 hbad), raises_raise s _ _⟩

/-- Settles O48: a step that fails the fetch check is faulted; every other one is a halt check after a word that left
the machine running or faulted. -/
theorem statusTransitions : Obligations.StatusTransitions := by
  unfold Obligations.StatusTransitions
  intro s t h
  obtain ⟨hr, ⟨-, rfl⟩ | ⟨w, u, -, rfl, hu⟩⟩ := step_next_cases h
  · exact ⟨hr, .inr (.inr (raise_isFaulted s _ _))⟩
  · have hstatus : RunningOrFaulted u := by
      obtain ⟨i, -, hx⟩ | ⟨-, rfl⟩ | ⟨-, rfl⟩ := hu
      · exact (exec_effect hx).runningOrFaulted hr
      · exact .inl hr
      · exact .inr (raise_isFaulted s _ _)
    exact ⟨hr, hstatus.haltCheck_endsAStep⟩

/-- Settles O38: the two sides of the halt check, the frame of the first from the laws of the halt check. -/
theorem haltCheckAddsTheDump : Obligations.HaltCheckAddsTheDump := by
  unfold Obligations.HaltCheckAddsTheDump
  refine fun s => ⟨fun hr hh => ?_, haltCheck_of_not_set⟩
  refine ⟨?_, ?_, ?_, by simp [SameRegs, SameMemory, SameHiLo, SamePlatform]⟩ <;> rw [haltCheck_of_set hr hh] <;> rfl

end Sys2Proof.Machine
end

section
/-! PROOFS, 41_alu.md: the result and the frame of the arithmetic, logic, shift and compare instructions (R77 to R89).
Each decodes from the words of its format, by `IsRWord.isWord` or `IsIWord.isWord`, and ends in `State.finish`, so that
`computesInto_of_finish` leaves of it the number its result stands for. -/

namespace Sys2Proof.Machine

open Sys2Proof

/-! ## Words of the two formats -/

/-- An R-type word as the decoder reads it (R52, R57): its register fields are the operands. -/
theorem IsRWord.isWord {w : Word} {op fn : Nat} {rs rt rd : RegNum} (h : IsRWord w op fn rs rt rd) :
    bitsOf w 26 6 = op ∧ bitsOf w 0 6 = fn ∧ rd = rdOf w ∧ rs = rsOf w ∧ rt = rtOf w := by
  obtain ⟨hop, hfn, hrs, hrt, hrd⟩ := h
  exact ⟨hop, hfn, (rdOf_eq hrd).symm, (rsOf_eq hrs).symm, (rtOf_eq hrt).symm⟩

/-- An I-type word as the decoder reads it (R53, R57). -/
theorem IsIWord.isWord {w : Word} {op : Nat} {rs rt : RegNum} {imm : BitVec 16} (h : IsIWord w op rs rt imm) :
    bitsOf w 26 6 = op ∧ rs = rsOf w ∧ rt = rtOf w ∧ imm = immOf w := by
  obtain ⟨hop, hrs, hrt, himm⟩ := h
  exact ⟨hop, (rsOf_eq hrs).symm, (rtOf_eq hrt).symm, (immOf_eq himm).symm⟩

/-! ## Instructions that end in `State.finish` -/

theorem advances_finish (s : State) (d : RegNum) (v : Word) : Advances s (s.finish d v) := advances_advance _

/-- An instruction that in every state finishes with a result computes the number the result stands for. -/
theorem computesInto_of_finish {i : Instr} {d : RegNum} {result : State → Word} {value : State → Nat}
    (hexec : ∀ s, exec i s = .next (s.finish d (result s))) (hvalue : ∀ s, (result s).toNat = value s) :
    ComputesInto i d value := fun s =>
  ⟨_, hexec s, by rw [State.reg_finish_self, hvalue], advances_finish s d _, finish_onlyRegister s d _⟩

theorem exec_slti_zero (rs : RegNum) (imm : BitVec 16) (s : State) : exec (.slti 0 rs imm) s = .next s.advance :=
  rfl

theorem exec_slti_of_ne {rt : RegNum} (h : rt ≠ 0) (rs : RegNum) (imm : BitVec 16) (s : State) :
    exec (.slti rt rs imm) s = .next (s.finish rt (truthWord (lessSigned (s.reg rs) (sext32 imm)))) := if_neg h

/-! ## Results as numbers -/

/-- The difference modulo 2^32 as the remainder of the difference of integers (R79). -/
theorem toNat_sub_eq_emod (a b : Word) : (a - b).toNat = (((a.toNat : Int) - b.toNat).emod (2 ^ 32)).toNat := by
  change (a - b).toNat = (((a.toNat : Int) - b.toNat) % 2 ^ 32).toNat
  rw [BitVec.toNat_sub]
  omega

/-- The result of a comparison (R82, R89). -/
theorem toNat_truthWord_lessSigned (a b : Word) :
    (truthWord (lessSigned a b)).toNat = if signedOf a < signedOf b then 1 else 0 := by
  rw [← toInt_eq_signedOf, ← toInt_eq_signedOf]
  exact toNat_truthWord _

theorem signedOf_sext32 (imm : BitVec 16) : signedOf (sext32 imm) = sextInt imm := by
  rw [← toInt_eq_signedOf, toInt_sext32]

/-- The low word of the signed product (R83). -/
theorem toNat_ofInt_mul_toInt (a b : Word) :
    (BitVec.ofInt 32 (a.toInt * b.toInt)).toNat = ((signedOf a * signedOf b).emod (2 ^ 32)).toNat := by
  rw [BitVec.toNat_ofInt, toInt_eq_signedOf, toInt_eq_signedOf]
  rfl

/-- The sum with a sign-extended immediate (R84, R85). -/
theorem toNat_add_sext32 (a : Word) (imm : BitVec 16) :
    (a + sext32 imm).toNat = (a.toNat + sextNat imm) % 2 ^ 32 := by
  rw [BitVec.toNat_add, toNat_sext32]

/-! ## The obligations -/

/-- Settles O7: the sum of words is the sum modulo 2^32. -/
theorem addAndAdduWrap : Obligations.AddAndAdduWrap := by
  unfold Obligations.AddAndAdduWrap
  refine ⟨fun _ _ _ _ h => decode_of_isWordOf h.isWord, fun _ _ _ _ h => decode_of_isWordOf h.isWord,
    fun rd rs rt => ?_, fun rd rs rt => ?_⟩
  · exact computesInto_of_finish (fun _ => rfl) fun s => BitVec.toNat_add (s.reg rs) (s.reg rt)
  · exact computesInto_of_finish (fun _ => rfl) fun s => BitVec.toNat_add (s.reg rs) (s.reg rt)

/-- Settles O8: by `toNat_sub_eq_emod`. -/
theorem subWraps : Obligations.SubWraps := by
  unfold Obligations.SubWraps
  refine ⟨fun _ _ _ _ h => decode_of_isWordOf h.isWord, fun rd rs rt => ?_⟩
  exact computesInto_of_finish (fun _ => rfl) fun s => toNat_sub_eq_emod (s.reg rs) (s.reg rt)

/-- Settles O9: the shift of a word is the product with the power of two, modulo 2^32, for every shift amount. -/
theorem sllShiftsLeft : Obligations.SllShiftsLeft := by
  unfold Obligations.SllShiftsLeft
  refine ⟨fun w rs rt rd h => ?_, fun rd rt shamt => computesInto_of_finish (fun _ => rfl) fun s => ?_⟩
  · obtain ⟨hop, hfn, hrd, -, hrt⟩ := h.isWord
    exact decode_of_isWordOf ⟨hop, hfn, hrd, hrt, rfl⟩
  · rw [BitVec.toNat_shiftLeft, Nat.shiftLeft_eq]

/-- Settles O10: the bits of a word are the bits of its number. -/
theorem orIsBitwise : Obligations.OrIsBitwise := by
  unfold Obligations.OrIsBitwise
  refine ⟨fun _ _ _ _ h => decode_of_isWordOf h.isWord, fun rd rs rt => ?_⟩
  exact computesInto_of_finish (fun _ => rfl) fun s => BitVec.toNat_or (s.reg rs) (s.reg rt)

/-- Settles O11: by `toNat_truthWord_lessSigned`. -/
theorem sltComparesSigned : Obligations.SltComparesSigned := by
  unfold Obligations.SltComparesSigned
  refine ⟨fun _ _ _ _ h => decode_of_isWordOf h.isWord, fun rd rs rt => ?_⟩
  exact computesInto_of_finish (fun _ => rfl) fun s => toNat_truthWord_lessSigned (s.reg rs) (s.reg rt)

/-- Settles O12: by `toNat_ofInt_mul_toInt`. -/
theorem mulKeepsTheLowWord : Obligations.MulKeepsTheLowWord := by
  unfold Obligations.MulKeepsTheLowWord
  refine ⟨fun _ _ _ _ h => decode_of_isWordOf h.isWord, fun rd rs rt => ?_⟩
  exact computesInto_of_finish (fun _ => rfl) fun s => toNat_ofInt_mul_toInt (s.reg rs) (s.reg rt)

/-- Settles O14: by `toNat_add_sext32`; the two instructions have one meaning by definition. -/
theorem addiAndAddiuWrap : Obligations.AddiAndAddiuWrap := by
  unfold Obligations.AddiAndAddiuWrap
  refine ⟨fun _ _ _ _ h => decode_of_isWordOf h.isWord, fun _ _ _ _ h => decode_of_isWordOf h.isWord,
    fun rt rs imm => ?_, fun rt rs imm => ?_, fun _ _ _ _ => rfl⟩
  · exact computesInto_of_finish (fun _ => rfl) fun s => toNat_add_sext32 (s.reg rs) imm
  · exact computesInto_of_finish (fun _ => rfl) fun s => toNat_add_sext32 (s.reg rs) imm

/-- Settles O15: zero extension keeps the number of the immediate. -/
theorem oriZeroExtends : Obligations.OriZeroExtends := by
  unfold Obligations.OriZeroExtends
  refine ⟨fun _ _ _ _ h => decode_of_isWordOf h.isWord, fun rt rs imm => ?_⟩
  refine computesInto_of_finish (fun _ => rfl) fun s => ?_
  rw [BitVec.toNat_or, toNat_zext32]

/-- Settles O16: the `rs` field of the word is dropped. -/
theorem luiLoadsTheUpperHalf : Obligations.LuiLoadsTheUpperHalf := by
  unfold Obligations.LuiLoadsTheUpperHalf
  refine ⟨fun w rs rt imm h => ?_, fun rt imm => computesInto_of_finish (fun _ => rfl) fun _ => toNat_upperHalf imm⟩
  obtain ⟨hop, -, hrt, himm⟩ := h.isWord
  exact decode_of_isWordOf ⟨hop, hrt, himm⟩

/-- Settles O17: the two branches of the write of `slti`. -/
theorem sltiSuppressesRegisterZero : Obligations.SltiSuppressesRegisterZero := by
  unfold Obligations.SltiSuppressesRegisterZero
  refine ⟨fun _ _ _ _ h => decode_of_isWordOf h.isWord, fun rt rs imm hrt => ?_, fun rs imm s => ?_⟩
  · refine computesInto_of_finish (exec_slti_of_ne hrt rs imm) fun s => ?_
    rw [toNat_truthWord_lessSigned, signedOf_sext32]
  · exact ⟨_, exec_slti_zero rs imm s, advances_advance s, advance_onlyPc s⟩

end Sys2Proof.Machine
end

section
/-! PROOFS, 42_control.md: the transfers of control (R91 to R97). The frame of each is that of `State.setPc`, and its
target as a number is a law of the operands. `NextPc` lists every PC that an instruction can leave, for the alignment
that all but `jr` keep (R92). -/

namespace Sys2Proof.Machine

open Sys2Proof

/-! ## J-type words -/

/-- A J-type word as the decoder reads it (R54, R57). -/
theorem IsJWord.isWord {w : Word} {op : Nat} {target : BitVec 26} (h : IsJWord w op target) :
    bitsOf w 26 6 = op ∧ target = targetOf w := ⟨h.1, (targetOf_eq h.2).symm⟩

/-! ## The end of a branch, and of a jump with a link -/

theorem toNat_add_four (p : Word) : (p + 4#32).toNat = (p.toNat + 4) % 2 ^ 32 := BitVec.toNat_add p 4#32

theorem branch_pc (s : State) (taken : Bool) (imm : BitVec 16) :
    (s.branch taken imm).pc = if taken then branchTarget s.pc imm else s.pc + 4#32 := by
  cases taken <;> rfl

theorem toNat_branch_pc (s : State) (taken : Bool) (imm : BitVec 16) :
    (s.branch taken imm).pc.toNat =
      if taken then (s.pc.toNat + 4 + sextNat imm * 4) % 2 ^ 32 else (s.pc.toNat + 4) % 2 ^ 32 := by
  rw [branch_pc, apply_ite BitVec.toNat, toNat_branchTarget, toNat_add_four]

theorem branch_onlyPc (s : State) (taken : Bool) (imm : BitVec 16) : OnlyPc s (s.branch taken imm) := by
  cases taken
  · exact advance_onlyPc s
  · exact setPc_onlyPc s _

/-- The frame of a register result does not depend on the PC it goes on to. -/
theorem setReg_setPc_onlyRegister (s : State) (d : RegNum) (v p : Word) :
    OnlyRegister s ((s.setReg d v).setPc p) d := finish_onlyRegister s d v

/-! ## Every next PC of an instruction -/

/-- The PCs that `i` can leave in `s` (R72, R73), with the instructions that lead to each of the transfers. -/
inductive NextPc (i : Instr) (s : State) : Word → Prop
  | sequential : NextPc i s (s.pc + 4#32)
  /-- A fault leaves the PC at the instruction. -/
  | fault : NextPc i s s.pc
  | branch (rs rt : RegNum) (imm : BitVec 16) (hi : i = .beq rs rt imm ∨ i = .bne rs rt imm) :
      NextPc i s (branchTarget s.pc imm)
  | jump (target : BitVec 26) (hi : i = .j target ∨ i = .jal target) : NextPc i s (jumpTarget s.pc target)
  | register (rs : RegNum) (hi : i = .jr rs) : NextPc i s (s.reg rs)

theorem NextPc.of_branch {i : Instr} {rs rt : RegNum} {imm : BitVec 16}
    (hi : i = .beq rs rt imm ∨ i = .bne rs rt imm) (s : State) (taken : Bool) :
    NextPc i s (s.branch taken imm).pc := by
  cases taken
  · exact .sequential
  · exact .branch rs rt imm hi

/-- A service goes on to `p + 4` or faults. -/
theorem Effect.nextPc_of_syscall {s t : State} (e : Effect .syscall s t) : NextPc .syscall s t.pc := by
  cases e with
  | output | input | exit => exact .sequential
  | badByte | badSelector => exact .fault
  | register _ _ _ _ hi => exact absurd rfl hi
  | pcOnly _ _ hi => exact absurd rfl hi
  | store _ _ _ hi => cases hi
  | badAddress _ _ _ hi => rcases hi with hi | hi <;> cases hi

theorem exec_nextPc {i : Instr} {s t : State} (h : exec i s = .next t) : NextPc i s t.pc := by
  cases i with
  | sll | add | addu | sub | or | slt | mul | addi | addiu | ori | lui => cases h; exact .sequential
  | slti rt rs imm =>
    simp only [exec, execSlti] at h
    split at h <;> cases h <;> exact .sequential
  | lw rt rs imm =>
    simp only [exec, execLw] at h
    split at h <;> cases h
    · exact .sequential
    · exact .fault
  | sw rt rs imm =>
    simp only [exec, execSw] at h
    split at h <;> cases h
    · obtain ⟨-, rfl⟩ := memWrite4_eq_some ‹_›
      exact .sequential
    · exact .fault
  | syscall => exact (exec_effect h).nextPc_of_syscall
  | beq rs rt imm => cases h; exact .of_branch (.inl rfl) s _
  | bne rs rt imm => cases h; exact .of_branch (.inr rfl) s _
  | j target => cases h; exact .jump target (.inl rfl)
  | jal target => cases h; exact .jump target (.inr rfl)
  | jr rs => cases h; exact .register rs rfl

/-- Every offset is a multiple of 4, and the region bits of a jump lie above the last two (R73). -/
theorem NextPc.aligned {i : Instr} {s : State} {p : Word} (hp : NextPc i s p) (hs : s.pc.toNat % 4 = 0)
    (hjr : ∀ rs, i ≠ .jr rs) : p.toNat % 4 = 0 := by
  cases hp with
  | sequential => rw [toNat_add_four]; omega
  | fault => exact hs
  | branch rs rt imm => rw [toNat_branchTarget]; omega
  | jump target => rw [toNat_jumpTarget]; omega
  | register rs hi => exact absurd hi (hjr rs)

/-! ## The obligations -/

/-- Settles O23: each of the next PCs of an instruction but `jr` is aligned when the PC is. -/
theorem transfersKeepThePcAligned : Obligations.TransfersKeepThePcAligned := by
  unfold Obligations.TransfersKeepThePcAligned
  exact fun i s t h hs hjr => (exec_nextPc h).aligned hs hjr

/-- Settles O18: the fields that `jr` does not use are dropped. -/
theorem jrJumpsToTheRegister : Obligations.JrJumpsToTheRegister := by
  unfold Obligations.JrJumpsToTheRegister
  refine ⟨fun w rs rt rd h => ?_, fun rs s => ⟨_, rfl, rfl, setPc_onlyPc s _⟩⟩
  obtain ⟨hop, hfn, -, hrs, -⟩ := h.isWord
  exact decode_of_isWordOf ⟨hop, hfn, hrs⟩

/-- Settles O19: both branches end in `State.branch`, taken on opposite conditions. -/
theorem branchesCompareRegisters : Obligations.BranchesCompareRegisters := by
  unfold Obligations.BranchesCompareRegisters
  refine ⟨fun _ _ _ _ h => decode_of_isWordOf h.isWord, fun _ _ _ _ h => decode_of_isWordOf h.isWord,
    fun rs rt imm s => ⟨_, rfl, ?_, branch_onlyPc s _ imm⟩, fun rs rt imm s => ⟨_, rfl, ?_, branch_onlyPc s _ imm⟩⟩
  · simp only [toNat_branch_pc, beq_iff_eq]
  · simp only [toNat_branch_pc, bne_iff_ne, ite_not]

/-- Settles O20: by `toNat_jumpTarget`. -/
theorem jumpStaysInItsRegion : Obligations.JumpStaysInItsRegion := by
  unfold Obligations.JumpStaysInItsRegion
  exact ⟨fun _ _ h => decode_of_isWordOf h.isWord,
    fun target s => ⟨_, rfl, toNat_jumpTarget s.pc target, setPc_onlyPc s _⟩⟩

/-- Settles O21: the target is that of `j`, and the link is read back from register 31. -/
theorem jalLinksThePcPlusFour : Obligations.JalLinksThePcPlusFour := by
  unfold Obligations.JalLinksThePcPlusFour
  refine ⟨fun _ _ h => decode_of_isWordOf h.isWord, fun target s =>
    ⟨_, rfl, toNat_jumpTarget s.pc target, ?_, setReg_setPc_onlyRegister s _ _ _⟩⟩
  rw [State.setPc_reg, State.reg_setReg_self, toNat_add_four]

/-- Settles O22: `jr` jumps to the link that `jal` left in register 31 (O21). -/
theorem jrReturnsBehindTheJal : Obligations.JrReturnsBehindTheJal := by
  unfold Obligations.JrReturnsBehindTheJal
  intro target s t h
  obtain ⟨u, hu, -, hlink, -⟩ := jalLinksThePcPlusFour.2 target s
  obtain rfl : u = t := by rw [hu] at h; injection h
  exact ⟨_, rfl, hlink⟩

end Sys2Proof.Machine
end

section
/-! PROOFS, 43_load_store.md: the load and the store of a word (R98 to R100), and the load of what was stored (R101).
Whether the access completes is `wordValid`, which the claims put in terms of byte reads; the frame of a store is that
of `State.putWord`. -/

namespace Sys2Proof.Machine

open Sys2Proof

/-! ## The word port in terms of byte reads -/

/-- The completing side of R98: `wordValid_eq_false_iff` is the faulting one. -/
theorem wordValid_of_memRead1 {s : State} {a : Word} (ha : a.toNat % 4 = 0)
    (h : ∀ k < 4, s.memRead1 (a + BitVec.ofNat 32 k) ≠ none) : s.wordValid a = true := by
  by_contra hv
  obtain hmis | ⟨k, hk, hnone⟩ := (wordValid_eq_false_iff s a).1 (by simpa using hv)
  · exact hmis ha
  · exact h k hk hnone

/-- The converse of `memRead1_of_memRead4`: four bytes at an aligned address are a word. -/
theorem memRead4_of_memRead1 {s : State} {a : Word} {b0 b1 b2 b3 : Byte} (ha : a.toNat % 4 = 0)
    (h0 : s.memRead1 a = some b0) (h1 : s.memRead1 (a + 1#32) = some b1) (h2 : s.memRead1 (a + 2#32) = some b2)
    (h3 : s.memRead1 (a + 3#32) = some b3) : s.memRead4 a = some (wordOfBytes b0 b1 b2 b3) := by
  obtain ⟨v0, rfl⟩ := (memRead1_eq_some s _ _).1 h0
  obtain ⟨v1, rfl⟩ := (memRead1_eq_some s _ _).1 h1
  obtain ⟨v2, rfl⟩ := (memRead1_eq_some s _ _).1 h2
  obtain ⟨v3, rfl⟩ := (memRead1_eq_some s _ _).1 h3
  exact memRead4_of_valid ((wordValid_iff s a).2 ⟨ha, v0, v1, v2, v3⟩)

/-! ## A list of stores to other addresses -/

/-- One store to another address keeps an aligned word and the run status: both addresses are aligned, so the two words
share no byte. -/
theorem memWrite4_keeps_other {s t : State} {a c v : Word} (h : s.memWrite4 c v = some t) (ha : a.toNat % 4 = 0)
    (hne : c ≠ a) : t.memRead4 a = s.memRead4 a ∧ t.status = s.status := by
  obtain ⟨hv, rfl⟩ := memWrite4_eq_some h
  obtain ⟨hc, -⟩ := (wordValid_iff s c).1 hv
  exact ⟨memRead4_putWord_other hc ha hne.symm v, rfl⟩

theorem foldlM_memWrite4_keeps_other {a : Word} (ha : a.toNat % 4 = 0) {stores : List (Word × Word)} {t u : State}
    (h : stores.foldlM (fun u p => u.memWrite4 p.1 p.2) t = some u) (hne : ∀ p ∈ stores, p.1 ≠ a) :
    u.memRead4 a = t.memRead4 a ∧ u.status = t.status := by
  induction stores generalizing t with
  | nil => cases h; exact ⟨rfl, rfl⟩
  | cons p rest ih =>
    rw [List.foldlM_cons] at h
    obtain ⟨t', hp, hrest⟩ := Option.bind_eq_some_iff.1 h
    obtain ⟨hne', hnerest⟩ := List.forall_mem_cons.1 hne
    obtain ⟨hread, hstatus⟩ := memWrite4_keeps_other hp ha hne'
    obtain ⟨hread', hstatus'⟩ := ih hrest hnerest
    exact ⟨hread'.trans hread, hstatus'.trans hstatus⟩

/-! ## The obligations -/

/-- Settles O26: the word that `sw` put at its address is still read there after stores to other addresses. -/
theorem loadReturnsTheStoredWord : Obligations.LoadReturnsTheStoredWord := by
  unfold Obligations.LoadReturnsTheStoredWord
  intro rt rs imm rt' rs' imm' s t u stores hsw hrun hstores hne haddr
  obtain ⟨hv, rfl⟩ := execSw_completed hsw hrun
  obtain ⟨hal, -⟩ := (wordValid_iff s _).1 hv
  obtain ⟨hread, hstatus⟩ := foldlM_memWrite4_keeps_other hal hstores hne
  have hput : (s.putWord (s.effectiveAddress rs imm) (s.reg rt)).advance.memRead4 (s.effectiveAddress rs imm) =
      some (s.reg rt) := memRead4_putWord_self hv _
  exact ⟨_, execLw_read haddr (hread.trans hput), State.reg_finish_self _ _ _, hstatus.trans hrun⟩

/-- Settles O24: four backed bytes at an aligned address are the word read; else the access is invalid. -/
theorem lwLoadsTheWord : Obligations.LwLoadsTheWord := by
  unfold Obligations.LwLoadsTheWord
  refine ⟨fun _ _ _ _ h => decode_of_isWordOf h.isWord, fun rs imm s => toNat_effectiveAddress s rs imm,
    fun rt rs imm s b0 b1 b2 b3 hal h0 h1 h2 h3 => ?_, fun rt rs imm s hbad => ?_⟩
  · refine ⟨_, execLw_read rfl (memRead4_of_memRead1 hal h0 h1 h2 h3), ?_, advances_finish s rt _,
      finish_onlyRegister s rt _⟩
    rw [State.reg_finish_self, toNat_wordOfBytes]
  · exact ⟨_, execLw_invalid rfl ((wordValid_eq_false_iff s _).2 hbad), raises_raise s _ _⟩

/-- Settles O25: `putWord` writes the four bytes of the word and no other; else the access is invalid. -/
theorem swStoresTheWord : Obligations.SwStoresTheWord := by
  unfold Obligations.SwStoresTheWord
  refine ⟨fun _ _ _ _ h => decode_of_isWordOf h.isWord, fun rs imm s => toNat_effectiveAddress s rs imm,
    fun rt rs imm s ea hea hal hbytes => ?_, fun rt rs imm s ea hea hbad => ?_⟩
  · have hv := wordValid_of_memRead1 hal hbytes
    refine ⟨_, execSw_valid hea hv, fun k hk => ?_, fun a ha => ?_, advances_advance _, fun _ => rfl, ⟨rfl, rfl⟩,
      ⟨rfl, rfl⟩, ⟨rfl, rfl, rfl⟩, ⟨rfl, rfl⟩⟩
    · exact ⟨_, memRead1_putWord_self hv (s.reg rt) hk, toNat_byteOfWord _ k⟩
    · exact memRead1_putWord_other s ha
  · exact ⟨_, execSw_invalid hea ((wordValid_eq_false_iff s ea).2 hbad), raises_raise s _ _⟩

end Sys2Proof.Machine
end

section
/-! PROOFS, 44_syscall.md: the character service (R109). Its frame is that of `State.out`, and the byte it writes is
byte 0 of `x[4]`. -/

namespace Sys2Proof.Machine

open Sys2Proof

/-- Settles O35: service 11 puts byte 0 of `x[4]` on COUT and goes on to `p + 4`. -/
theorem printCharacterWritesOneByte : Obligations.PrintCharacterWritesOneByte := by
  unfold Obligations.PrintCharacterWritesOneByte
  intro s hsel
  have hbyte : ((s.reg 4).extractLsb' 0 8).toNat = (s.reg 4).toNat % 2 ^ 8 := by
    rw [BitVec.extractLsb'_toNat, Nat.shiftRight_zero]
  exact ⟨_, _, exec_syscall_printCharacter hsel, hbyte, advances_advance (s.out _), out_onlyOutput s _⟩

end Sys2Proof.Machine
end

section
/-! PROOFS, 60_exceptions.md: why a step ends in a fault and what it leaves (section 1: R117, R119, R120, R122).
`FaultCause` lists the causes with the word each records and the bytes written before it. A step that ends in a fault has
one of them, and a running machine with one of them ends its step in that fault. -/

namespace Sys2Proof.Machine

open Sys2Proof

/-! ## The causes of a fault -/

/-- What makes the next step of `s` raise a fault of a kind, the word it records, and the bytes that the step has put on
COUT by then: only the loop of print_string writes before it fails (D9). -/
inductive FaultCause (s : State) : FaultKind → Word → List Byte → Prop
  | noFetch (hf : s.fetch = none) : FaultCause s .fetchError s.pc []
  | badOpcode (w : Word) (hf : s.fetch = some w) (hd : decode w = .unimplementedOpcode) :
      FaultCause s .unimplementedOpcode w []
  | badAddress (w : Word) (rt rs : RegNum) (imm : BitVec 16) (hf : s.fetch = some w)
      (hd : decode w = .instr (.lw rt rs imm) ∨ decode w = .instr (.sw rt rs imm))
      (hv : s.wordValid (s.effectiveAddress rs imm) = false) :
      FaultCause s .addressError (s.effectiveAddress rs imm) []
  | badSelector (w : Word) (hf : s.fetch = some w) (hd : decode w = .instr .syscall)
      (hv : (s.reg .v0).toNat ∉ serviceCodes) : FaultCause s .unknownSyscall (s.reg .v0) []
  | badByte (w : Word) (str : List Byte) (hf : s.fetch = some w) (hd : decode w = .instr .syscall)
      (hv : (s.reg .v0).toNat = 4) (hs : StringAt s (s.reg .a0) str)
      (hn : s.memRead1 (s.reg .a0 + BitVec.ofNat 32 str.length) = none) :
      FaultCause s .addressError (s.reg .a0 + BitVec.ofNat 32 str.length) str

/-! ## A step with a cause raises its fault -/

theorem step_of_exec_raise {s u : State} {w : Word} {i : Instr} {kind : FaultKind} {info : Word}
    (hr : s.status = .running) (hf : s.fetch = some w) (hd : decode w = .instr i)
    (hx : exec i s = .next (u.raise kind info)) : step s = .next (u.raise kind info) := by
  rw [step_of_fetch hr hf, dispatch, hd]
  exact (congrArg checked hx).trans (congrArg Host.Outcome.next (haltCheck_raise u kind info))

/-- A string that runs into an unbacked byte is what the loop of R106 finds, since there is no other. -/
theorem scanString_of_unbacked {s : State} {a : Word} {str : List Byte} (hs : StringAt s a str)
    (hn : s.memRead1 (a + BitVec.ofNat 32 str.length) = none) :
    s.scanString a = .unbacked str (a + BitVec.ofNat 32 str.length) := by
  rcases scanString_cases s a with ⟨str', -, hs', hz⟩ | ⟨str', e, hs', hn'⟩ | ⟨-, hall⟩
  · obtain rfl := string_unique hs hs' (.inr hn) (.inl hz)
    simp [hn] at hz
  · obtain rfl := string_unique hs hs' (.inr hn) (.inr hn')
    exact e
  · obtain ⟨b, hb, -⟩ := hall (a + BitVec.ofNat 32 str.length)
    simp [hn] at hb

theorem servicePrintString_of_unbacked {s : State} {str : List Byte} (hs : StringAt s (s.reg .a0) str)
    (hn : s.memRead1 (s.reg .a0 + BitVec.ofNat 32 str.length) = none) :
    servicePrintString s = .next ((s.out str).raise .addressError (s.reg .a0 + BitVec.ofNat 32 str.length)) := by
  rw [servicePrintString, scanString_of_unbacked hs hn]

theorem FaultCause.step_eq {s : State} {kind : FaultKind} {info : Word} {bytes : List Byte}
    (c : FaultCause s kind info bytes) (hr : s.status = .running) :
    step s = .next ((s.out bytes).raise kind info) := by
  cases c with
  | noFetch hf => rw [out_nil]; exact step_of_no_fetch hr hf
  | badOpcode _ hf hd => rw [out_nil]; exact step_of_unimplemented hr hf hd
  | badAddress w rt rs imm hf hd hv =>
    rw [out_nil]
    rcases hd with hd | hd
    · exact step_of_exec_raise hr hf hd (execLw_invalid rfl hv)
    · exact step_of_exec_raise hr hf hd (execSw_invalid rfl hv)
  | badSelector w hf hd hv => rw [out_nil]; exact step_of_exec_raise hr hf hd (exec_syscall_unknown hv)
  | badByte w _ hf hd hv hs hn =>
    exact step_of_exec_raise hr hf hd ((exec_syscall_printString hv).trans (servicePrintString_of_unbacked hs hn))

/-! ## A step that ends in a fault has a cause -/

/-- The halt check makes no fault, and leaves one alone. -/
theorem haltCheck_of_faulted {s : State} {kind : FaultKind} {info : Word}
    (h : s.haltCheck.status = .faulted kind info) : s.haltCheck = s := by
  rcases haltCheck_cases s with ⟨-, -, e⟩ | ⟨-, e⟩
  · rw [e] at h
    cases h
  · exact e

/-- The three effects that raise a fault are three of the causes; every other one leaves the machine running. -/
theorem Effect.faultCause {i : Instr} {s t : State} {w : Word} {kind : FaultKind} {info : Word} (e : Effect i s t)
    (hr : s.status = .running) (hf : s.fetch = some w) (hd : decode w = .instr i) (ht : t.status = .faulted kind info) :
    ∃ bytes, FaultCause s kind info bytes := by
  cases e with
  | register | pcOnly | store | output | input | exit => cases hr.symm.trans ht
  | badAddress rt rs imm hi hv =>
    cases ht
    exact ⟨[], .badAddress w rt rs imm hf (by simpa [hd] using hi) hv⟩
  | badByte str hi hv hs hn =>
    cases ht
    exact ⟨str, .badByte w str hf (hi ▸ hd) hv hs hn⟩
  | badSelector hi hv =>
    cases ht
    exact ⟨[], .badSelector w hf (hi ▸ hd) hv⟩

theorem exists_faultCause {s t : State} {kind : FaultKind} {info : Word} (h : step s = .next t)
    (ht : t.status = .faulted kind info) : ∃ bytes, FaultCause s kind info bytes := by
  obtain ⟨hr, ⟨hf, rfl⟩ | ⟨w, u, hf, rfl, hu⟩⟩ := step_next_cases h
  · cases ht
    exact ⟨[], .noFetch hf⟩
  · rw [haltCheck_of_faulted ht] at ht
    obtain ⟨i, hd, hx⟩ | ⟨-, rfl⟩ | ⟨hd, rfl⟩ := hu
    · exact (exec_effect hx).faultCause hr hf hd ht
    · cases hr.symm.trans ht
    · cases ht
      exact ⟨[], .badOpcode _ hf hd⟩

theorem step_faulted_iff {s t : State} (hr : s.status = .running) (h : step s = .next t) (kind : FaultKind)
    (info : Word) : t.status = .faulted kind info ↔ ∃ bytes, FaultCause s kind info bytes := by
  refine ⟨exists_faultCause h, fun ⟨bytes, c⟩ => ?_⟩
  rw [c.step_eq hr] at h
  cases h
  rfl

/-! ## The obligations -/

/-- Settles O46: by `step_faulted_iff`, the five cases of the statement being the five causes. -/
theorem eachFaultHasItsCause : Obligations.EachFaultHasItsCause := by
  unfold Obligations.EachFaultHasItsCause
  intro s t kind info hr h
  rw [step_faulted_iff hr h]
  constructor
  · rintro ⟨bytes, c⟩
    cases c with
    | noFetch hf => exact .inl ⟨hf, rfl, rfl⟩
    | badOpcode _ hf hd => exact .inr ⟨_, hf, .inl ⟨hd, rfl, rfl⟩⟩
    | badAddress w rt rs imm hf hd hv => exact .inr ⟨w, hf, .inr (.inl ⟨rt, rs, imm, hd, hv, rfl, rfl⟩)⟩
    | badSelector w hf hd hv => exact .inr ⟨w, hf, .inr (.inr (.inl ⟨hd, hv, rfl, rfl⟩))⟩
    | badByte w _ hf hd hv hs hn => exact .inr ⟨w, hf, .inr (.inr (.inr ⟨hd, hv, rfl, _, hs, rfl, hn⟩))⟩
  · rintro (⟨hf, rfl, rfl⟩ | ⟨w, hf, ⟨hd, rfl, rfl⟩ | ⟨rt, rs, imm, hd, hv, rfl, rfl⟩ | ⟨hd, hv, rfl, rfl⟩ |
      ⟨hd, hv, rfl, str, hs, rfl, hn⟩⟩)
    · exact ⟨[], .noFetch hf⟩
    · exact ⟨[], .badOpcode _ hf hd⟩
    · exact ⟨[], .badAddress w rt rs imm hf hd hv⟩
    · exact ⟨[], .badSelector w hf hd hv⟩
    · exact ⟨str, .badByte w str hf hd hv hs hn⟩

/-- Settles O47: the step is the raise of its cause, and only an unbacked byte of a string has output before it. -/
theorem faultsArePrecise : Obligations.FaultsArePrecise := by
  unfold Obligations.FaultsArePrecise
  intro s t kind info hr h ht
  obtain ⟨bytes, c⟩ := exists_faultCause h ht
  obtain rfl : (s.out bytes).raise kind info = t := by
    rw [c.step_eq hr] at h
    injection h
  refine ⟨bytes, raises_out s kind info bytes, fun hb => ?_⟩
  cases c with
  | noFetch | badOpcode | badAddress | badSelector => exact absurd rfl hb
  | badByte w _ hf hd hv => exact ⟨rfl, hv, w, hf, hd⟩

end Sys2Proof.Machine
end

section
/-! PROOFS, 70_reset_and_hazards.md: the state before the first cycle (section 1, R134). -/

namespace Sys2Proof.Machine

open Sys2Proof

/-- The register file at launch (10_state.md R30): a zero file with `$sp` written. -/
theorem State.reg_launch (params : Params) (m0 : Memory) (input : List Byte) (r : RegNum) :
    (State.launch params m0 input).reg r = if r = .sp then 0x7FFFEFFC#32 else 0x00000000#32 := by
  have hzero : (Vector.replicate 32 0x00000000#32).get r = 0x00000000#32 := Vector.getElem_replicate r.isLt
  rw [← hzero]
  exact State.reg_setReg { State.launch params m0 input with x := Vector.replicate 32 0x00000000#32 } .sp r 0x7FFFEFFC#32

/-- Settles O59: the registers by `State.reg_launch`; the other fields, the PC the fetch reads at included, are those
`State.launch` writes down. -/
theorem launchState : Obligations.LaunchState := by
  unfold Obligations.LaunchState
  refine ⟨fun p m0 input => ⟨rfl, ?sp, fun r hr => ?others, rfl, rfl, rfl, rfl, rfl, rfl, rfl, rfl⟩,
    resetParams, [], [], rfl⟩
  case sp => exact State.reg_launch p m0 input .sp
  case others => rw [State.reg_launch, if_neg hr]

end Sys2Proof.Machine
end

section
/-! PROOFS, 00_scope.md section 4 and 10_state.md sections 3, 4 and 6: the streams move one way (O54), and the invariant
holds at every launch, is kept by every step, and so holds in every state of a run (O56 to O58). `step_preserves` says
once what a property of the next state has to be proved of. -/

namespace Sys2Proof.Machine

open Sys2Proof

/-- A property of every effect of an instruction, of the sequential advance and of a raised fault, which the halt check
keeps, is a property of the state after a step. -/
theorem step_preserves {P : State → Prop} {s t : State} (h : step s = .next t)
    (heffect : ∀ {i u}, Effect i s u → P u) (hadvance : P s.advance) (hraise : ∀ kind info, P (s.raise kind info))
    (hcheck : ∀ {u : State}, P u → P u.haltCheck) : P t := by
  obtain ⟨-, ⟨-, rfl⟩ | ⟨w, u, -, rfl, ⟨i, -, hx⟩ | ⟨-, rfl⟩ | ⟨-, rfl⟩⟩⟩ := step_next_cases h
  · exact hraise _ _
  · exact hcheck (heffect (exec_effect hx))
  · exact hcheck hadvance
  · exact hcheck (hraise _ _)

/-! ## The streams and the parameters -/

/-- `t` may follow `s`: output was only appended, input only taken from the front, the parameters kept. -/
def MovesOneWay (s t : State) : Prop :=
  s.cout <+: t.cout ∧ s.cerr <+: t.cerr ∧ t.cin <:+ s.cin ∧ t.params = s.params

theorem movesOneWay_of_sameConsole {s t : State} (h : SameConsole s t) (hp : t.params = s.params) :
    MovesOneWay s t := by
  obtain ⟨hin, hout, herr⟩ := h
  simp [MovesOneWay, hin, hout, herr, hp]

theorem MovesOneWay.trans {s t u : State} (h : MovesOneWay s t) (h' : MovesOneWay t u) : MovesOneWay s u := by
  obtain ⟨hout, herr, hin, hp⟩ := h
  obtain ⟨hout', herr', hin', hp'⟩ := h'
  exact ⟨hout.trans hout', herr.trans herr', hin'.trans hin, hp'.trans hp⟩

theorem movesOneWay_out (s : State) (bytes : List Byte) : MovesOneWay s (s.out bytes) :=
  ⟨List.prefix_append _ _, List.prefix_rfl, List.suffix_rfl, rfl⟩

theorem movesOneWay_raise (s : State) (kind : FaultKind) (info : Word) : MovesOneWay s (s.raise kind info) :=
  ⟨List.prefix_rfl, List.prefix_append _ _, List.suffix_rfl, rfl⟩

theorem movesOneWay_haltCheck (s : State) : MovesOneWay s s.haltCheck := by
  rcases haltCheck_cases s with ⟨-, -, e⟩ | ⟨-, e⟩ <;> rw [e]
  · exact movesOneWay_out s s.dump
  · exact movesOneWay_of_sameConsole ⟨rfl, rfl, rfl⟩ rfl

/-- Services 1, 4 and 11 and the faults append; service 5 takes what the parser consumed. -/
theorem Effect.movesOneWay {i : Instr} {s t : State} (e : Effect i s t) : MovesOneWay s t := by
  cases e with
  | register | pcOnly | store | exit => exact movesOneWay_of_sameConsole ⟨rfl, rfl, rfl⟩ rfl
  | output bytes => exact movesOneWay_out s bytes
  | input v rest _ _ hr => exact ⟨List.prefix_rfl, List.prefix_rfl, readInt_suffix hr, rfl⟩
  | badAddress | badSelector => exact movesOneWay_raise s _ _
  | badByte str => exact (movesOneWay_out s str).trans (movesOneWay_raise _ _ _)

theorem step_movesOneWay {s t : State} (h : step s = .next t) : MovesOneWay s t :=
  step_preserves h Effect.movesOneWay (movesOneWay_of_sameConsole ⟨rfl, rfl, rfl⟩ rfl) (movesOneWay_raise s)
    fun hu => hu.trans (movesOneWay_haltCheck _)

/-! ## The parts of the invariant that a step can break -/

/-- The memory list is canonical and inside MEM_VALID. -/
def State.MemoryOk (s : State) : Prop := Memory.wf s.mem ∧ s.MemoryBacked

theorem State.MemoryOk.congr {s t : State} (h : s.MemoryOk) (hm : t.mem = s.mem) (hp : t.params = s.params) :
    t.MemoryOk := by
  obtain ⟨hwf, hbacked⟩ := h
  refine ⟨hm ▸ hwf, fun p hmem => ?_⟩
  rw [byteValid_congr hp]
  exact hbacked p (hm ▸ hmem)

/-- Only a store at a valid address changes the list. -/
theorem Effect.memoryOk {i : Instr} {s t : State} (e : Effect i s t) (h : s.MemoryOk) : t.MemoryOk := by
  cases e with
  | store rt rs imm _ hv =>
    obtain ⟨hwf, hbacked⟩ := h
    exact ⟨putWord_wf hwf _ _, putWord_backed hbacked hv _⟩
  | register | pcOnly | output | input | exit | badAddress | badByte | badSelector => exact h.congr rfl rfl

theorem step_memoryOk {s t : State} (h : step s = .next t) (hs : s.MemoryOk) : t.MemoryOk :=
  step_preserves h (·.memoryOk hs) (hs.congr rfl rfl) (fun _ _ => hs.congr rfl rfl)
    fun hu => hu.congr (haltCheck_mem _) (haltCheck_params _)

/-- CERR is written by `raise` alone. -/
theorem Effect.quietUntilFault {i : Instr} {s t : State} (e : Effect i s t) (h : s.cerr = []) :
    t.QuietUntilFault := by
  cases e with
  | register | pcOnly | store | output | input | exit => exact .inr h
  | badAddress | badByte | badSelector => exact .inl (raise_isFaulted _ _ _)

theorem State.QuietUntilFault.haltCheck {s : State} (h : s.QuietUntilFault) : s.haltCheck.QuietUntilFault := by
  rcases haltCheck_cases s with ⟨hr, -, -⟩ | ⟨-, e⟩
  · rcases h with hf | hc
    · cases (congrArg RunStatus.isFaulted hr).symm.trans hf
    · exact .inr ((haltCheck_cerr s).trans hc)
  · rwa [e]

theorem step_quietUntilFault {s t : State} (h : step s = .next t) (hs : s.cerr = []) : t.QuietUntilFault :=
  step_preserves h (·.quietUntilFault hs) (.inr hs) (fun kind info => .inl (raise_isFaulted s kind info))
    State.QuietUntilFault.haltCheck

theorem isFaulted_iff {st : RunStatus} : st.isFaulted = true ↔ ∃ kind info, st = .faulted kind info := by
  cases st <;> simp [RunStatus.isFaulted]

/-- From a clear flag a step ends in a row of R76 that matches it: a fault leaves the flag clear (D9). -/
theorem step_haltMatchesStatus {s t : State} (h : step s = .next t) (hs : s.halt = false) :
    t.HaltMatchesStatus := by
  obtain ⟨hr, ⟨ht, hh⟩ | ⟨ht, hh⟩ | ht⟩ := statusTransitions s t h
  · simp [State.HaltMatchesStatus, ht, hh]
  · simp [State.HaltMatchesStatus, ht, hh]
  · obtain ⟨kind, info, ht⟩ := isFaulted_iff.1 ht
    obtain ⟨bytes, ⟨-, -, -, -, -, -, hh, -⟩, -⟩ := faultsArePrecise s t kind info hr h ht
    simp [State.HaltMatchesStatus, ht, hh, hs]

/-! ## A property of every state of a run -/

/-- What every step keeps holds after any number of steps. -/
theorem run_preserves {M : Host.Core} {P : M.State → Prop} (hstep : ∀ s t, P s → M.step s = .next t → P t) {n : Nat}
    {s t : M.State} (hs : P s) (h : M.run n s = .next t) : P t := by
  induction n generalizing s with
  | zero => cases h; exact hs
  | succ n ih =>
    obtain ⟨u, hu, hrun⟩ := run_succ M h
    exact ih (hstep s u hs hu) hrun

theorem launch_inv {p : Params} {m0 : Memory} (input : List Byte) (hp : p.ok) (hwf : Memory.wf m0)
    (hbacked : (State.launch p m0 input).MemoryBacked) : (State.launch p m0 input).Inv :=
  ⟨hwf, hbacked, by simp [State.HaltMatchesStatus, State.launch], .inr rfl, ⟨rfl, rfl⟩, hp⟩

/-! ## The obligations -/

/-- Settles O54: every effect of an instruction moves the streams one way, and so do a fault and the halt check. -/
theorem streamsMoveOneWay : Obligations.StreamsMoveOneWay := by
  unfold Obligations.StreamsMoveOneWay
  exact fun _ _ h => step_movesOneWay h

/-- Settles O56: a state that steps is running, so with the invariant its halt flag is clear and its CERR empty; each
part then has its own lemma. -/
theorem stepKeepsTheInvariant : Obligations.StepKeepsTheInvariant := by
  unfold Obligations.StepKeepsTheInvariant
  rintro s t ⟨hwf, hbacked, hhalt, hquiet, ⟨hhi, hlo⟩, hok⟩ h
  obtain ⟨hr, -⟩ := step_next_cases h
  have hclear : s.halt = false := by simpa [State.HaltMatchesStatus, hr] using hhalt
  have hcerr : s.cerr = [] := by simpa [State.QuietUntilFault, hr, RunStatus.isFaulted] using hquiet
  obtain ⟨hwf', hbacked'⟩ := step_memoryOk h ⟨hwf, hbacked⟩
  obtain ⟨hhi', hlo'⟩ := hiAndLoNeverChange s t h
  obtain ⟨-, -, -, hparams⟩ := step_movesOneWay h
  exact ⟨hwf', hbacked', step_haltMatchesStatus h hclear, step_quietUntilFault h hcerr,
    ⟨hhi'.trans hhi, hlo'.trans hlo⟩, hparams ▸ hok⟩

/-- Settles O57: the launch state has the invariant, and every step of the run keeps it (O56). -/
theorem launchedRunsKeepTheInvariant : Obligations.LaunchedRunsKeepTheInvariant := by
  unfold Obligations.LaunchedRunsKeepTheInvariant
  intro p m0 input n t hp hwf hbacked h
  exact run_preserves (M := core) (P := State.Inv) stepKeepsTheInvariant (launch_inv input hp hwf hbacked) h

/-- Settles O58: `State.reset` is a launch with an empty image. -/
theorem resetHasTheInvariant : Obligations.ResetHasTheInvariant := by
  unfold Obligations.ResetHasTheInvariant
  exact launch_inv [] (by decide) reset_wf (by simp [State.MemoryBacked, State.launch])

end Sys2Proof.Machine
end

section
/-! PROOFS, 44_syscall.md: the services print_int, print_string, read_int and exit, the unknown selector and the register
dump (R103 to R113, R116). The frame of each service is that of the update it ends in; what it writes or reads is a law of
console text. -/

namespace Sys2Proof.Machine

open Sys2Proof

/-! ## print_int (R105) -/

theorem dec_isDecimal (v : Word) :
    ∃ ds, IsDecimal (signedOf v).natAbs ds ∧ dec v.toInt = (if signedOf v < 0 then [0x2D#8] else []) ++ ds := by
  rw [toInt_eq_signedOf]
  exact ⟨_, decNat_isDecimal 9 _ (natAbs_signedOf_lt v), rfl⟩

/-! ## print_string (R106) -/

/-- The terminated side of `scanString_of_unbacked`. -/
theorem scanString_of_terminated {s : State} {a : Word} {str : List Byte} (hs : StringAt s a str)
    (hz : s.memRead1 (a + BitVec.ofNat 32 str.length) = some 0x00#8) : s.scanString a = .terminated str := by
  rcases scanString_cases s a with ⟨str', e, hs', hz'⟩ | ⟨str', -, hs', hn⟩ | ⟨-, hall⟩
  · obtain rfl := string_unique hs hs' (.inl hz) (.inl hz')
    exact e
  · obtain rfl := string_unique hs hs' (.inl hz) (.inr hn)
    simp [hz] at hn
  · obtain ⟨b, hb, hne⟩ := hall (a + BitVec.ofNat 32 str.length)
    exact absurd (Option.some.inj (hb.symm.trans hz)) hne

/-- The loop has no end exactly when every byte is backed and none is the terminator. -/
theorem scanString_eq_endless_iff (s : State) (a : Word) :
    s.scanString a = .endless ↔ ∀ c, ∃ b, s.memRead1 c = some b ∧ b ≠ 0x00#8 := by
  rcases scanString_cases s a with ⟨str, e, -, hz⟩ | ⟨str, e, -, hn⟩ | ⟨e, hall⟩
  · refine iff_of_false (by simp [e]) fun hall => ?_
    obtain ⟨b, hb, hne⟩ := hall (a + BitVec.ofNat 32 str.length)
    exact hne (Option.some.inj (hb.symm.trans hz))
  · refine iff_of_false (by simp [e]) fun hall => ?_
    obtain ⟨b, hb, -⟩ := hall (a + BitVec.ofNat 32 str.length)
    simp [hn] at hb
  · exact iff_of_true e hall

theorem servicePrintString_of_terminated {s : State} {str : List Byte} (hs : StringAt s (s.reg .a0) str)
    (hz : s.memRead1 (s.reg .a0 + BitVec.ofNat 32 str.length) = some 0x00#8) :
    servicePrintString s = .next (s.out str).advance := by
  rw [servicePrintString, scanString_of_terminated hs hz]

theorem servicePrintString_eq_endless_iff (s : State) :
    servicePrintString s = .fault .endlessString ↔ s.scanString (s.reg .a0) = .endless := by
  unfold servicePrintString
  cases s.scanString (s.reg .a0) <;> simp

/-! ## read_int (R107, R110) -/

/-- Nothing but `x[2]`, CIN and the PC differs: `x[2]` holds `value`, and `rest` is left of CIN. -/
def ReadsInt (s t : State) (value : Nat) (rest : List Byte) : Prop :=
  (t.reg 2).toNat = value ∧ t.cin = rest ∧ Advances s t ∧ SameRegsBut s t 2 ∧ SameMemory s t ∧ SameHiLo s t ∧
    SameControl s t ∧ t.cout = s.cout ∧ t.cerr = s.cerr ∧ SamePlatform s t

/-- What the parser answers is what the service does. -/
theorem exec_syscall_readsInt {s : State} {v : Word} {value : Nat} {rest : List Byte} (hsel : (s.reg 2).toNat = 5)
    (h : readInt s.params.inEof s.cin = some (v, rest)) (hv : v.toNat = value) :
    ∃ t, exec .syscall s = .next t ∧ ReadsInt s t value rest := by
  refine ⟨_, (exec_syscall_readInt hsel).trans (serviceReadInt_of_some h), ?_, rfl, advances_finish _ _ _,
    fun r hr => State.reg_setReg_of_ne _ hr v, fun a => memRead1_congr rfl rfl a, ⟨rfl, rfl⟩, ⟨rfl, rfl⟩, rfl, rfl,
    ⟨rfl, rfl⟩⟩
  rw [← hv]
  exact congrArg BitVec.toNat (State.reg_finish_self _ _ v)

theorem newline_not_mem_digits {ds : List Byte} (h : ∀ c ∈ ds, IsDigit c) : 0x0A#8 ∉ ds := fun hmem =>
  absurd (h _ hmem) (by decide)

theorem toNat_of_signedOf_nonneg {v : Word} (h : 0 ≤ signedOf v) : v.toNat = (signedOf v).natAbs := by
  have := v.isLt
  unfold signedOf at h ⊢
  split at h <;> omega

/-! ## The register dump (R116) -/

theorem hexValue_hexByte (c : HexCase) {d : Nat} (h : d < 16) : hexValue c (hexByte c d) = some d := by
  have hall : ∀ d : Fin 16, hexValue c (hexByte c d) = some d.val := by cases c <;> decide
  exact hall ⟨d, h⟩

/-- The `k` least significant hexadecimal digits of `n`, the most significant of them first. -/
def hexDigits (c : HexCase) (n k : Nat) : List Byte := (List.range k).reverse.map fun j => hexByte c (n / 16 ^ j % 16)

theorem hexDigits_succ (c : HexCase) (n k : Nat) :
    hexDigits c n (k + 1) = hexByte c (n / 16 ^ k % 16) :: hexDigits c n k := by
  simp [hexDigits, List.range_succ]

theorem hex8_eq_hexDigits (c : HexCase) (v : Word) : hex8 c v = hexDigits c v.toNat 8 := rfl

/-- Digits read after the number `m` give `m` and the remainder they spell. -/
theorem hexDigits_foldl (c : HexCase) (n k m : Nat) :
    (hexDigits c n k).foldl (fun m b => m * 16 + (hexValue c b).getD 0) m = m * 16 ^ k + n % 16 ^ k := by
  induction k generalizing m with
  | zero => simp [hexDigits, Nat.mod_one]
  | succ k ih =>
    rw [hexDigits_succ, List.foldl_cons, ih, hexValue_hexByte c (Nat.mod_lt _ (by decide)), Option.getD_some,
      Nat.mod_pow_succ]
    ring

theorem hex8_isHex (c : HexCase) (v : Word) : IsHex c v.toNat (hex8 c v) := by
  rw [hex8_eq_hexDigits]
  constructor
  · intro b hb
    obtain ⟨j, -, rfl⟩ := List.mem_map.1 hb
    simp [hexValue_hexByte c (Nat.mod_lt _ (by decide))]
  · rw [hexDigits_foldl, Nat.zero_mul, Nat.zero_add]
    exact Nat.mod_eq_of_lt v.isLt

theorem pad2_eq (p : DumpPad) (i : Nat) :
    pad2 p i = [if i < 10 then padByte p else digitByte (i / 10), digitByte (i % 10)] := by
  unfold pad2
  split
  next h => rw [Nat.mod_eq_of_lt h]
  next => rfl

/-! ## The obligations -/

/-- Settles O29: ten digits are enough for the magnitude of a word. -/
theorem printIntWritesDecimal : Obligations.PrintIntWritesDecimal := by
  unfold Obligations.PrintIntWritesDecimal
  intro s hsel
  obtain ⟨ds, hds, htext⟩ := dec_isDecimal (s.reg 4)
  refine ⟨_, ds, exec_syscall_printInt hsel, hds, advances_advance (s.out _), ?_⟩
  rw [← htext]
  exact out_onlyOutput s _

/-- Settles O30: the loop finds the string, up to its terminator or up to an unbacked byte. -/
theorem printStringWritesUpToNul : Obligations.PrintStringWritesUpToNul := by
  unfold Obligations.PrintStringWritesUpToNul
  intro s str hsel hs
  rw [exec_syscall_printString hsel]
  exact ⟨fun hz => ⟨_, servicePrintString_of_terminated hs hz, advances_advance (s.out _), out_onlyOutput s str⟩,
    fun hn => ⟨_, servicePrintString_of_unbacked hs hn, raises_out s _ _ str⟩⟩

/-- Settles O31: the service has no step exactly when its loop has no end. -/
theorem endlessStringHasNoStep : Obligations.EndlessStringHasNoStep := by
  unfold Obligations.EndlessStringHasNoStep
  intro s hsel
  rw [exec_syscall_printString hsel, servicePrintString_eq_endless_iff, scanString_eq_endless_iff]

/-- Settles O32: the three answers of the parser to an input with a newline, at its end, and still open. -/
theorem readIntTakesOneLine : Obligations.ReadIntTakesOneLine := by
  unfold Obligations.ReadIntTakesOneLine
  refine ⟨fun s line rest hsel hline hcin => ?_, fun s hsel hline heof => ?_, fun s hsel hline heof => ?_⟩
  · obtain ⟨v, hread, hv⟩ := readInt_line s.params.inEof line rest hline
    exact exec_syscall_readsInt hsel (by simpa [hcin] using hread) hv
  · obtain ⟨v, hread, hv⟩ := readInt_end s.cin hline
    exact exec_syscall_readsInt hsel (by rwa [heof]) hv
  · rw [exec_syscall_readInt hsel]
    exact serviceReadInt_of_none (by rw [heof]; exact readInt_wait s.cin hline)

/-- Settles O33: the text of a word that is not negative is digits only (O29), so the line that read_int takes (O32) has
them all as its leading digits. -/
theorem readIntReadsBackPrintInt : Obligations.ReadIntReadsBackPrintInt := by
  unfold Obligations.ReadIntReadsBackPrintInt
  intro s t u rest hsel hnonneg hempty hprint hsel' hcin
  obtain ⟨t', ds, hexec, ⟨-, hdigits, hvalue, -⟩, -, ⟨-, -, -, -, -, hcout, -⟩⟩ := printIntWritesDecimal s hsel
  obtain rfl : t' = t := Host.Outcome.next.inj (hexec.symm.trans hprint)
  have htext : t'.cout = ds := by simpa [hempty, Int.not_lt.2 hnonneg] using hcout
  rw [htext] at hcin
  obtain ⟨v, hread, hword, hrest, -⟩ := readIntTakesOneLine.1 u ds rest hsel' (newline_not_mem_digits hdigits) hcin
  refine ⟨v, hread, BitVec.eq_of_toNat_eq ?_, hrest⟩
  rw [hword, digitPrefix_of_digits ds hdigits, hvalue, ← toNat_of_signedOf_nonneg hnonneg]
  exact Nat.mod_eq_of_lt (s.reg 4).isLt

/-- Settles O34: the service sets the flag and goes on to `p + 4`. -/
theorem exitSetsTheHaltFlag : Obligations.ExitSetsTheHaltFlag := by
  unfold Obligations.ExitSetsTheHaltFlag
  intro s hsel
  exact ⟨_, exec_syscall_exit hsel, rfl, rfl, advances_advance s, fun _ => rfl, fun a => memRead1_congr rfl rfl a,
    ⟨rfl, rfl⟩, ⟨rfl, rfl, rfl⟩, ⟨rfl, rfl⟩⟩

/-- Settles O36: the service of any other selector is the raise of its fault. -/
theorem unknownSelectorIsFatal : Obligations.UnknownSelectorIsFatal := by
  unfold Obligations.UnknownSelectorIsFatal
  refine ⟨fun w rs rt rd h => ?_, fun s hsel => ⟨_, exec_syscall_unknown hsel, raises_raise s _ _⟩⟩
  obtain ⟨hop, hfn, -⟩ := h
  exact decode_of_isWordOf ⟨hop, hfn⟩

/-- Settles O40: each line is `State.dumpLine`, its index by `pad2_eq` and its digits by `hex8_isHex`. -/
theorem dumpListsTheRegisters : Obligations.DumpListsTheRegisters := by
  unfold Obligations.DumpListsTheRegisters
  refine fun s => ⟨s.dumpLine, rfl, fun i => ⟨_, rfl, hex8_isHex s.params.dumpHexCase (s.reg i), ?_⟩⟩
  rw [State.dumpLine, pad2_eq]
  rfl

end Sys2Proof.Machine
end

section
/-! PROOFS, 40_cycle.md section 1 and 70_reset_and_hazards.md section 1: the step that runs an instruction, the step that
runs `exit` (R74), and the word that stands for a load before the first fetch (log entry 11). -/

namespace Sys2Proof.Machine

open Sys2Proof

/-! ## The step that runs an instruction -/

theorem step_of_instr {s : State} {w : Word} {i : Instr} (hr : s.status = .running) (hf : s.fetch = some w)
    (hd : decode w = .instr i) : step s = checked (exec i s) := by
  rw [step_of_fetch hr hf, dispatch, hd]

/-- The state after the step that runs `exit`: the flag set and the PC advanced by the service, the run ended and the
dump written by the halt check. -/
def State.afterExit (s : State) : State :=
  { { s with halt := true }.advance.out s.dump with status := .halted }

theorem step_of_exit {s : State} {w : Word} (hr : s.status = .running) (hf : s.fetch = some w)
    (hd : decode w = .instr .syscall) (hsel : (s.reg 2).toNat = 10) : step s = .next s.afterExit := by
  rw [step_of_instr hr hf hd, exec_syscall_exit hsel]
  exact congrArg Host.Outcome.next (haltCheck_of_set hr rfl)

/-! ## The word placed for the fetch -/

/-- The PC of `State.atAlignedPc`: its two low bits cleared. -/
theorem and_alignMask_aligned (a : Word) : (a &&& 0xFFFFFFFC#32).toNat % 4 = 0 := by
  have hlow : (a &&& 0xFFFFFFFC#32) &&& 3#32 = 0#32 := by
    rw [BitVec.and_assoc]
    exact BitVec.and_zero
  have hnat := congrArg BitVec.toNat hlow
  rw [BitVec.toNat_and] at hnat
  exact (Nat.and_two_pow_sub_one_eq_mod _ 2).symm.trans hnat

/-- The four bytes that `backing` adds are those of the word: an aligned word does not wrap. -/
theorem byteValid_of_backing {s : State} {a : Word} (ha : a.toNat % 4 = 0) {k : Nat} (hk : k < 4) :
    { s with params := Params.backing s.params a }.byteValid (a + BitVec.ofNat 32 k) = true := by
  have hlt := a.isLt
  have hbyte : (a + BitVec.ofNat 32 k).toNat = a.toNat + k := by
    rw [BitVec.toNat_add, BitVec.toNat_ofNat]
    omega
  have hholds : Region.holds ⟨a.toNat, 4⟩ (a + BitVec.ofNat 32 k).toNat = true := by
    simp [Region.holds, hbyte, hk]
  simp only [State.byteValid, Params.backing, List.any_cons, hholds, Bool.true_or]

theorem wordValid_of_backing {s : State} {a : Word} (ha : a.toNat % 4 = 0) :
    { s with params := Params.backing s.params a }.wordValid a = true :=
  wordValid_of_memRead1 ha fun k hk hnone => by
    rw [memRead1_eq_none, byteValid_of_backing ha hk] at hnone
    cases hnone

/-- `s` with the word at its PC backed. -/
def State.withPcBacked (s : State) : State :=
  if s.wordValid s.pc then s else { s with params := Params.backing s.params s.pc }

@[simp] theorem State.withPcBacked_pc (s : State) : s.withPcBacked.pc = s.pc := by
  unfold State.withPcBacked
  split <;> rfl

@[simp] theorem State.withPcBacked_status (s : State) : s.withPcBacked.status = s.status := by
  unfold State.withPcBacked
  split <;> rfl

theorem State.wordValid_withPcBacked {s : State} (ha : s.pc.toNat % 4 = 0) : s.withPcBacked.wordValid s.pc = true := by
  unfold State.withPcBacked
  split
  next hv => exact hv
  next => exact wordValid_of_backing ha

/-- The state that `placeWord` puts the word in: running, at an aligned PC. -/
def State.atAlignedPc (s : State) : State := { s with status := .running, pc := s.pc &&& 0xFFFFFFFC#32 }

theorem State.placeWord_eq (s : State) (w : Word) :
    s.placeWord w = s.atAlignedPc.withPcBacked.putWord s.atAlignedPc.pc w := rfl

theorem State.placeWord_status (s : State) (w : Word) : (s.placeWord w).status = .running := by
  rw [State.placeWord_eq, State.putWord_status, State.withPcBacked_status]
  rfl

theorem State.placeWord_fetch (s : State) (w : Word) : (s.placeWord w).fetch = some w := by
  rw [State.fetch, State.placeWord_eq, State.putWord_pc, State.withPcBacked_pc]
  exact memRead4_putWord_self (State.wordValid_withPcBacked (and_alignMask_aligned s.pc)) w

theorem withFetchWord_toNat (s : State) (w : Word) : s.withFetchWord 32 w.toNat = s.placeWord w := by
  rw [State.withFetchWord, Nat.mod_eq_of_lt w.isLt, BitVec.ofNat_toNat, BitVec.setWidth_eq]

/-! ## The obligations -/

/-- Settles O37: the four bytes at an aligned PC are the fetched word. -/
theorem stepRunsTheDecodedInstruction : Obligations.StepRunsTheDecodedInstruction := by
  unfold Obligations.StepRunsTheDecodedInstruction
  intro s i b0 b1 b2 b3 hr hal h0 h1 h2 h3 hd
  exact step_of_instr hr (memRead4_of_memRead1 hal h0 h1 h2 h3) hd

/-- Settles O39: the step ends in `State.afterExit`, whose status is terminal. -/
theorem exitEndsTheRun : Obligations.ExitEndsTheRun := by
  unfold Obligations.ExitEndsTheRun
  intro s w hr hf hd hsel
  exact ⟨_, step_of_exit hr hf hd hsel, rfl, rfl, rfl, advances_advance s, rfl, fun _ => rfl,
    fun a => memRead1_congr rfl rfl a, step_of_ended (by simp [State.afterExit])⟩

/-- Settles O60: `withFetchWord` places the word itself, where the next fetch reads it. -/
theorem placedWordIsFetched : Obligations.PlacedWordIsFetched := by
  unfold Obligations.PlacedWordIsFetched
  intro s w
  rw [withFetchWord_toNat]
  exact ⟨s.placeWord_fetch w, s.placeWord_status w⟩

end Sys2Proof.Machine
end

section
/-! PROOFS, 41_alu.md, the corner case of `mul` (R83, R90): the low word of a product is the product of words, so it does
not depend on how the factors are read. -/

namespace Sys2Proof.Machine

open Sys2Proof

theorem ofInt_mul_toInt (a b : Word) : BitVec.ofInt 32 (a.toInt * b.toInt) = a * b := by
  rw [BitVec.ofInt_mul, BitVec.ofInt_toInt, BitVec.ofInt_toInt]

/-- Settles O13: by `ofInt_mul_toInt`. -/
theorem mulDoesNotDependOnSignedness : Obligations.MulDoesNotDependOnSignedness := by
  unfold Obligations.MulDoesNotDependOnSignedness
  intro rd rs rt
  refine computesInto_of_finish (fun _ => rfl) fun s => ?_
  rw [ofInt_mul_toInt, BitVec.toNat_mul]

end Sys2Proof.Machine
end
